-- ==== Sys2Proof/Word.lean ====
section
/-! DEFINITION. The machine's word types: the 32-bit command and window word (R100, R30) and the byte of a bus lane (R63). -/

namespace Sys2Proof

/-- A command word or the contents of one window register (R30, R100). -/
abbrev Word := BitVec 32

/-- One byte lane of a host access (R63). -/
abbrev Byte := BitVec 8

end Sys2Proof
end

