-- ==== Sys2Proof/Config.lean ====
section
/-! DEFINITION. What an implementation fixes (the spec's two named parameters), the constants of the spec, and the one free value. -/

namespace Sys2Proof

/-- The two parameters a model takes as arguments (R9, R11).  They are constants of one machine: State carries them and no
step changes them, so a statement over every state is a statement for every value of them.
DESIGN CHOICE (log 1, log 2): safe. -/
structure Params where
  /-- `MAXSEG`: the largest number of 16-bit segments a BigNum register holds (R9). -/
  maxSeg : Nat
  /-- `MMIO_BASE`: the host-bus address of offset 0 of the register window (R11). -/
  mmioBase : Nat
deriving DecidableEq, Repr

/-- The values the spec allows the parameters (R9, R11). -/
abbrev Params.legal (p : Params) : Prop :=
  2 ≤ p.maxSeg ∧ p.maxSeg ≤ 65535 ∧ p.mmioBase % 4096 = 0

/-- The parameters of `State.reset`: `MAXSEG` is the spec's reference value (R9); `MMIO_BASE` has none, and is 0 here.
DESIGN CHOICE (log 1, log 2): the values are the model's, no statement rests on them. -/
def Params.reference : Params := { maxSeg := 256, mmioBase := 0 }

namespace Config

/-- The constant of the ID register (R31). -/
def idValue : Word := 0x48454C58#32

/-- The field `NREGM1` of PARAM: the number of BigNum registers less one (R8, R32). -/
def nregMinusOne : BitVec 4 := 0xF#4

/-- `MR_DEFAULT_ROUNDS` (R10): the round count of the assembler's `MRTEST rs1`. -/
def mrDefaultRounds : BitVec 16 := 20#16

/-- The size in bytes of the register window (R60). -/
def windowBytes : Nat := 4096

/-- The free value behind the n-th Miller-Rabin base draw that nobody supplied from outside (R16, R268): it has no body, so
nothing can be proved of a value of it.  DESIGN CHOICE (log 3): safe. -/
opaque freeDraw : Nat → Nat

end Config

end Sys2Proof
end

