-- ==== Sys2Proof/Syntax.lean ====
section
/-! DEFINITION. The commands of the engine, one constructor per row of the opcode table (R108), and the assembler's pseudo-instructions (R122). -/

namespace Sys2Proof

/-- A BigNum register number, `b0` to `b15` (R20, R107): every value is a register. -/
abbrev Reg := Fin 16

/-- One command.  The operands stand in the assembler's order (R121): destinations first, then sources, then the immediate,
which is kept as its 16 bits (R106). -/
inductive Instr where
  | nop                                          -- R140
  | clr (rd : Reg)                               -- R141
  | ldi (rd : Reg) (imm : BitVec 16)             -- R142
  | mov (rd rs1 : Reg)                           -- R143
  | add (rd rs1 rs2 : Reg)                       -- R160
  | sub (rd rs1 rs2 : Reg)                       -- R161
  | mul (rd rs1 rs2 : Reg)                       -- R180
  | muli (rd rs1 : Reg) (imm : BitVec 16)        -- R181
  | mulmod (rd rs1 rs2 rs3 : Reg)                -- R182
  | div (rd rs1 rs2 : Reg)                       -- R184
  | mod (rd rs1 rs2 : Reg)                       -- R185
  | divmod (rd rr rs1 rs2 : Reg)                 -- R186
  | shl (rd rs1 : Reg) (imm : BitVec 16)         -- R211
  | shr (rd rs1 : Reg) (imm : BitVec 16)         -- R212
  | shlv (rd rs1 rs2 : Reg)                      -- R213
  | shrv (rd rs1 rs2 : Reg)                      -- R214
  | testbit (rs1 : Reg) (imm : BitVec 16)        -- R230
  | setbit (rd rs1 : Reg) (imm : BitVec 16)      -- R231
  | bitlen (rd rs1 : Reg)                        -- R232
  | cmp (rs1 rs2 : Reg)                          -- R233
  | expmod (rd rs1 rs2 rs3 : Reg)                -- R251
  | egcd (rd rx ry rs1 rs2 : Reg)                -- R256
  | modinv (rd rs1 rs2 : Reg)                    -- R260
  | mrw (rs1 rs2 : Reg)                          -- R266
  | mrtest (rs1 : Reg) (imm : BitVec 16)         -- R269
deriving DecidableEq, Repr

/-- The pseudo-instructions of R122, each of which stands for exactly one command. -/
inductive Pseudo where
  | shr1 (rd rs1 : Reg)
  | sqrmod (rd rs1 rs3 : Reg)
  | mrtest (rs1 : Reg)
  | zero (rd : Reg)
deriving DecidableEq, Repr

/-- Why a word is no command (each is the fault ILLEGAL at completion). -/
inductive DecodeError where
  /-- The opcode is none of the map's (R110). -/
  | unassignedOpcode
  /-- The opcode is assigned, and a bit that must be zero is not (R111). -/
  | mustBeZeroBits
  /-- Two destinations name one register (R112). -/
  | equalDestinations
deriving DecidableEq, Repr

end Sys2Proof
end

