-- ==== Sys2Proof/WellFormed.lean ====
section
/-! DEFINITION. When a command is legal as an instruction: its destinations are distinct registers (R112, R24). -/

namespace Sys2Proof

/-- The destination registers a command names (R108, R109). -/
def Instr.destinations : Instr → List Reg
  | .nop => []
  | .clr rd => [rd]
  | .ldi rd _ => [rd]
  | .mov rd _ => [rd]
  | .add rd _ _ => [rd]
  | .sub rd _ _ => [rd]
  | .mul rd _ _ => [rd]
  | .muli rd _ _ => [rd]
  | .mulmod rd _ _ _ => [rd]
  | .div rd _ _ => [rd]
  | .mod rd _ _ => [rd]
  | .divmod rd rr _ _ => [rd, rr]
  | .shl rd _ _ => [rd]
  | .shr rd _ _ => [rd]
  | .shlv rd _ _ => [rd]
  | .shrv rd _ _ => [rd]
  | .testbit _ _ => []
  | .setbit rd _ _ => [rd]
  | .bitlen rd _ => [rd]
  | .cmp _ _ => []
  | .expmod rd _ _ _ => [rd]
  | .egcd rd rx ry _ _ => [rd, rx, ry]
  | .modinv rd _ _ => [rd]
  | .mrw _ _ => []
  | .mrtest _ _ => []

/-- A command is well formed when no two of its destinations are one register (R112); every other operand value the
types admit is legal (R106, R107). -/
abbrev Instr.WellFormed (i : Instr) : Prop := i.destinations.Nodup

end Sys2Proof
end

