-- ==== Sys2Proof/Decode.lean ====
section
/-! DEFINITION. Decoding a command word (R100 to R114), the opcode table's match and mask (R109), the encoder (R123), and the assembler's immediates, pseudo-instructions and text (R120 to R122). -/

namespace Sys2Proof

/-! ### Fields (R101 to R105) -/

/-- The opcode `w[31:24]` (R101). -/
def opcodeOf (w : Word) : BitVec 8 := w.extractLsb' 24 8

/-- The 4-bit register field whose lowest bit is bit `lo` (R101, R103, R105, R107). -/
def regField (w : Word) (lo : Nat) : Reg := (w.extractLsb' lo 4).toFin

/-- `imm16 = w[15:0]` (R104, R106). -/
def immField (w : Word) : BitVec 16 := w.extractLsb' 0 16

/-! ### The opcode table (R109) -/

/-- One row of R109: a word belongs to the row exactly when `w &&& mask = pattern`. -/
structure Row where
  mnemonic : String
  pattern : Word
  mask : Word
deriving DecidableEq, Repr

/-- Whether a word selects a row (R109). -/
def Row.selects (r : Row) (w : Word) : Bool := w &&& r.mask == r.pattern

/-- The row of R109 each command belongs to. -/
def Instr.row : Instr → Row
  | .nop => ⟨"NOP", 0x00000000#32, 0xFFFFFFFF#32⟩
  | .clr _ => ⟨"CLR", 0x01000000#32, 0xFF0FFFFF#32⟩
  | .ldi _ _ => ⟨"LDI", 0x02000000#32, 0xFF0F0000#32⟩
  | .mov _ _ => ⟨"MOV", 0x03000000#32, 0xFF00FFFF#32⟩
  | .add _ _ _ => ⟨"ADD", 0x10000000#32, 0xFF000FFF#32⟩
  | .sub _ _ _ => ⟨"SUB", 0x11000000#32, 0xFF000FFF#32⟩
  | .mul _ _ _ => ⟨"MUL", 0x20000000#32, 0xFF000FFF#32⟩
  | .muli _ _ _ => ⟨"MULI", 0x21000000#32, 0xFF000000#32⟩
  | .mulmod _ _ _ _ => ⟨"MULMOD", 0x22000000#32, 0xFF0000FF#32⟩
  | .div _ _ _ => ⟨"DIV", 0x28000000#32, 0xFF000FFF#32⟩
  | .mod _ _ _ => ⟨"MOD", 0x29000000#32, 0xFF000FFF#32⟩
  | .divmod _ _ _ _ => ⟨"DIVMOD", 0x2A000000#32, 0xFF0000FF#32⟩
  | .shl _ _ _ => ⟨"SHL", 0x30000000#32, 0xFF000000#32⟩
  | .shr _ _ _ => ⟨"SHR", 0x31000000#32, 0xFF000000#32⟩
  | .shlv _ _ _ => ⟨"SHLV", 0x32000000#32, 0xFF000FFF#32⟩
  | .shrv _ _ _ => ⟨"SHRV", 0x33000000#32, 0xFF000FFF#32⟩
  | .testbit _ _ => ⟨"TESTBIT", 0x40000000#32, 0xFFF00000#32⟩
  | .setbit _ _ _ => ⟨"SETBIT", 0x41000000#32, 0xFF000000#32⟩
  | .bitlen _ _ => ⟨"BITLEN", 0x42000000#32, 0xFF00FFFF#32⟩
  | .cmp _ _ => ⟨"CMP", 0x48000000#32, 0xFFF00FFF#32⟩
  | .expmod _ _ _ _ => ⟨"EXPMOD", 0x50000000#32, 0xFF0000FF#32⟩
  | .egcd _ _ _ _ _ => ⟨"EGCD", 0x51000000#32, 0xFF00000F#32⟩
  | .modinv _ _ _ => ⟨"MODINV", 0x52000000#32, 0xFF000FFF#32⟩
  | .mrw _ _ => ⟨"MRW", 0x58000000#32, 0xFFF00FFF#32⟩
  | .mrtest _ _ => ⟨"MRTEST", 0x59000000#32, 0xFFF00000#32⟩

/-- The table of R109, in its order: the rows of one command of each kind. -/
def opcodeTable : List Row :=
  [(Instr.nop).row, (Instr.clr 0).row, (Instr.ldi 0 0).row, (Instr.mov 0 0).row, (Instr.add 0 0 0).row] ++
  [(Instr.sub 0 0 0).row, (Instr.mul 0 0 0).row, (Instr.muli 0 0 0).row, (Instr.mulmod 0 0 0 0).row] ++
  [(Instr.div 0 0 0).row, (Instr.mod 0 0 0).row, (Instr.divmod 0 0 0 0).row, (Instr.shl 0 0 0).row] ++
  [(Instr.shr 0 0 0).row, (Instr.shlv 0 0 0).row, (Instr.shrv 0 0 0).row, (Instr.testbit 0 0).row] ++
  [(Instr.setbit 0 0 0).row, (Instr.bitlen 0 0).row, (Instr.cmp 0 0).row, (Instr.expmod 0 0 0 0).row] ++
  [(Instr.egcd 0 0 0 0 0).row, (Instr.modinv 0 0 0).row, (Instr.mrw 0 0).row, (Instr.mrtest 0 0).row]

/-! ### The decoder (R108 to R114) -/

/-- A word whose opcode selects `i`: legal when its must-be-zero bits (`mbz`, R111) are zero and its destinations are
distinct (R112). -/
def accept (w mbz : Word) (i : Instr) : Except DecodeError Instr :=
  if w &&& mbz = 0#32 then
    (if i.WellFormed then .ok i else .error .equalDestinations)
  else .error .mustBeZeroBits

/-- Decoding is total (R114): every word is one command or names why it is none. -/
def decodeWord (w : Word) : Except DecodeError Instr :=
  let rd := regField w 20
  let rs1 := regField w 16
  let rs2 := regField w 12
  let f11 := regField w 8
  let f7 := regField w 4
  let imm := immField w
  match opcodeOf w with
  | 0x00#8 => accept w 0x00FFFFFF#32 .nop
  | 0x01#8 => accept w 0x000FFFFF#32 (.clr rd)
  | 0x02#8 => accept w 0x000F0000#32 (.ldi rd imm)
  | 0x03#8 => accept w 0x0000FFFF#32 (.mov rd rs1)
  | 0x10#8 => accept w 0x00000FFF#32 (.add rd rs1 rs2)
  | 0x11#8 => accept w 0x00000FFF#32 (.sub rd rs1 rs2)
  | 0x20#8 => accept w 0x00000FFF#32 (.mul rd rs1 rs2)
  | 0x21#8 => accept w 0x00000000#32 (.muli rd rs1 imm)
  | 0x22#8 => accept w 0x000000FF#32 (.mulmod rd rs1 rs2 f11)
  | 0x28#8 => accept w 0x00000FFF#32 (.div rd rs1 rs2)
  | 0x29#8 => accept w 0x00000FFF#32 (.mod rd rs1 rs2)
  | 0x2A#8 => accept w 0x000000FF#32 (.divmod rd f11 rs1 rs2)
  | 0x30#8 => accept w 0x00000000#32 (.shl rd rs1 imm)
  | 0x31#8 => accept w 0x00000000#32 (.shr rd rs1 imm)
  | 0x32#8 => accept w 0x00000FFF#32 (.shlv rd rs1 rs2)
  | 0x33#8 => accept w 0x00000FFF#32 (.shrv rd rs1 rs2)
  | 0x40#8 => accept w 0x00F00000#32 (.testbit rs1 imm)
  | 0x41#8 => accept w 0x00000000#32 (.setbit rd rs1 imm)
  | 0x42#8 => accept w 0x0000FFFF#32 (.bitlen rd rs1)
  | 0x48#8 => accept w 0x00F00FFF#32 (.cmp rs1 rs2)
  | 0x50#8 => accept w 0x000000FF#32 (.expmod rd rs1 rs2 f11)
  | 0x51#8 => accept w 0x0000000F#32 (.egcd rd f11 f7 rs1 rs2)
  | 0x52#8 => accept w 0x00000FFF#32 (.modinv rd rs1 rs2)
  | 0x58#8 => accept w 0x00F00FFF#32 (.mrw rs1 rs2)
  | 0x59#8 => accept w 0x00F00000#32 (.mrtest rs1 imm)
  | _ => .error .unassignedOpcode

/-- The command word a table row's bits make: one 32-bit word (R100), whose bits above `nbits` are zero. -/
def tableWord (nbits w : Nat) : Word := BitVec.ofNat 32 (w % 2 ^ nbits)

/-- What the decoder reads from the word whose bits are `w` (the opcode table's numbering is the word's own). -/
def decodeTableWord (nbits w : Nat) : Option Instr :=
  match decodeWord (tableWord nbits w) with
  | .ok i => some i
  | .error _ => none

/-! ### The encoder (R102 to R105, R123) -/

/-- A register number as a 4-bit field (R107). -/
def regBits (r : Reg) : BitVec 4 := BitVec.ofFin r

/-- The formats with register fields only: N, R and E (R102, R103, R105). -/
def packRegs (op : BitVec 8) (rd rs1 rs2 f11 f7 : Reg) : Word :=
  op ++ regBits rd ++ regBits rs1 ++ regBits rs2 ++ regBits f11 ++ regBits f7 ++ 0#4

/-- Format I (R104). -/
def packImm (op : BitVec 8) (rd rs1 : Reg) (imm : BitVec 16) : Word :=
  op ++ regBits rd ++ regBits rs1 ++ imm

/-- The word of a command: each operand in the field R109 gives it, every other bit zero (R123). -/
def encode : Instr → Word
  | .nop => packRegs 0x00#8 0 0 0 0 0
  | .clr rd => packRegs 0x01#8 rd 0 0 0 0
  | .ldi rd imm => packImm 0x02#8 rd 0 imm
  | .mov rd rs1 => packRegs 0x03#8 rd rs1 0 0 0
  | .add rd rs1 rs2 => packRegs 0x10#8 rd rs1 rs2 0 0
  | .sub rd rs1 rs2 => packRegs 0x11#8 rd rs1 rs2 0 0
  | .mul rd rs1 rs2 => packRegs 0x20#8 rd rs1 rs2 0 0
  | .muli rd rs1 imm => packImm 0x21#8 rd rs1 imm
  | .mulmod rd rs1 rs2 rs3 => packRegs 0x22#8 rd rs1 rs2 rs3 0
  | .div rd rs1 rs2 => packRegs 0x28#8 rd rs1 rs2 0 0
  | .mod rd rs1 rs2 => packRegs 0x29#8 rd rs1 rs2 0 0
  | .divmod rd rr rs1 rs2 => packRegs 0x2A#8 rd rs1 rs2 rr 0
  | .shl rd rs1 imm => packImm 0x30#8 rd rs1 imm
  | .shr rd rs1 imm => packImm 0x31#8 rd rs1 imm
  | .shlv rd rs1 rs2 => packRegs 0x32#8 rd rs1 rs2 0 0
  | .shrv rd rs1 rs2 => packRegs 0x33#8 rd rs1 rs2 0 0
  | .testbit rs1 imm => packImm 0x40#8 0 rs1 imm
  | .setbit rd rs1 imm => packImm 0x41#8 rd rs1 imm
  | .bitlen rd rs1 => packRegs 0x42#8 rd rs1 0 0 0
  | .cmp rs1 rs2 => packRegs 0x48#8 0 rs1 rs2 0 0
  | .expmod rd rs1 rs2 rs3 => packRegs 0x50#8 rd rs1 rs2 rs3 0
  | .egcd rd rx ry rs1 rs2 => packRegs 0x51#8 rd rs1 rs2 rx ry
  | .modinv rd rs1 rs2 => packRegs 0x52#8 rd rs1 rs2 0 0
  | .mrw rs1 rs2 => packRegs 0x58#8 0 rs1 rs2 0 0
  | .mrtest rs1 imm => packImm 0x59#8 0 rs1 imm

/-! ### The assembler (R120 to R122) -/

/-- An unsigned immediate: the assembler refuses a number outside 0..65535 (R120). -/
def asmUimm (v : Int) : Option (BitVec 16) :=
  if 0 ≤ v ∧ v ≤ 65535 then some (BitVec.ofInt 16 v) else none

/-- A signed shift immediate: refused outside -32768..32767 (R120), else `simm mod 65536` (R123). -/
def asmSimm (v : Int) : Option (BitVec 16) :=
  if -32768 ≤ v ∧ v ≤ 32767 then some (BitVec.ofInt 16 v) else none

/-- The one command each pseudo-instruction stands for (R122). -/
def Pseudo.expand : Pseudo → Instr
  | .shr1 rd rs1 => .shr rd rs1 1#16
  | .sqrmod rd rs1 rs3 => .mulmod rd rs1 rs1 rs3
  | .mrtest rs1 => .mrtest rs1 Config.mrDefaultRounds
  | .zero rd => .clr rd

/-- One operand of an assembler line (R120). -/
inductive AsmOperand where
  | reg (r : Reg)
  | num (v : Int)
deriving DecidableEq, Repr

/-- One digit of a number, by its value. -/
def digitOf (c : Char) : Option Nat :=
  if '0' ≤ c ∧ c ≤ '9' then some (c.toNat - 48)
  else if 'A' ≤ c ∧ c ≤ 'F' then some (c.toNat - 55)
  else none

/-- A nonempty run of digits in a radix; letters in capitals. -/
def digitsFrom (radix : Nat) : Nat → List Char → Option Nat
  | acc, [] => some acc
  | acc, c :: cs =>
    match digitOf c with
    | some d => if d < radix then digitsFrom radix (acc * radix + d) cs else none
    | none => none

/-- A decimal number, or a hexadecimal one prefixed `0x` (R120); letters in capitals. -/
def unsignedOf : List Char → Option Nat
  | [] => none
  | ['0', 'X'] => none
  | '0' :: 'X' :: cs => digitsFrom 16 0 cs
  | c :: cs => digitsFrom 10 0 (c :: cs)

/-- A decimal number after its sign: R120 gives a sign to decimal numbers alone. -/
def decimalOf : List Char → Option Nat
  | [] => none
  | c :: cs => digitsFrom 10 0 (c :: cs)

/-- One operand: a register `b0` to `b15`, or a number, a decimal one with an optional sign (R120).
DESIGN CHOICE (log 13): safe. -/
def operandOf : List Char → Option AsmOperand
  | 'B' :: cs =>
    match cs with
    | ['0'] => some (.reg 0)
    | '0' :: _ => none
    | _ =>
      match decimalOf cs with
      | some v => if h : v < 16 then some (.reg ⟨v, h⟩) else none
      | none => none
  | '-' :: cs => (decimalOf cs).map (fun v => .num (-(v : Int)))
  | '+' :: cs => (decimalOf cs).map (fun v => .num (v : Int))
  | cs => (unsignedOf cs).map (fun v => .num (v : Int))

/-- Whether a mnemonic takes a signed immediate: SHL and SHR alone (R120). -/
def takesSign (m : String) : Bool := m == "SHL" || m == "SHR"

/-- Whether a blank-stripped operand begins with a sign. -/
def beginsWithSign : List Char → Bool
  | [] => false
  | c :: _ => c == '-' || c == '+'

/-- The parts of a text between separators. -/
def splitAt (sep : Char) : List Char → List Char → List (List Char)
  | cur, [] => [cur.reverse]
  | cur, c :: cs => if c = sep then cur.reverse :: splitAt sep [] cs else splitAt sep (c :: cur) cs

/-- Blanks around an operand do not count. -/
def stripBlanks (cs : List Char) : List Char :=
  ((cs.dropWhile (fun c => c.isWhitespace)).reverse.dropWhile (fun c => c.isWhitespace)).reverse

/-- Every operand of a line, or none when one of them is no operand. -/
def operandsOf : List (List Char) → Option (List AsmOperand)
  | [] => some []
  | t :: ts =>
    match operandOf (stripBlanks t), operandsOf ts with
    | some o, some os => some (o :: os)
    | _, _ => none

/-- The command of a mnemonic and its operands, in the order of R121, with the pseudo-instructions of R122. -/
def assembleOps (m : String) (ops : List AsmOperand) : Option Instr :=
  match m, ops with
  | "NOP", [] => some .nop
  | "CLR", [.reg rd] => some (.clr rd)
  | "ZERO", [.reg rd] => some (Pseudo.zero rd).expand
  | "LDI", [.reg rd, .num v] => (asmUimm v).map (.ldi rd)
  | "MOV", [.reg rd, .reg rs1] => some (.mov rd rs1)
  | "ADD", [.reg rd, .reg rs1, .reg rs2] => some (.add rd rs1 rs2)
  | "SUB", [.reg rd, .reg rs1, .reg rs2] => some (.sub rd rs1 rs2)
  | "MUL", [.reg rd, .reg rs1, .reg rs2] => some (.mul rd rs1 rs2)
  | "MULI", [.reg rd, .reg rs1, .num v] => (asmUimm v).map (.muli rd rs1)
  | "MULMOD", [.reg rd, .reg rs1, .reg rs2, .reg rs3] => some (.mulmod rd rs1 rs2 rs3)
  | "SQRMOD", [.reg rd, .reg rs1, .reg rs3] => some (Pseudo.sqrmod rd rs1 rs3).expand
  | "DIV", [.reg rd, .reg rs1, .reg rs2] => some (.div rd rs1 rs2)
  | "MOD", [.reg rd, .reg rs1, .reg rs2] => some (.mod rd rs1 rs2)
  | "DIVMOD", [.reg rd, .reg rr, .reg rs1, .reg rs2] => some (.divmod rd rr rs1 rs2)
  | "SHL", [.reg rd, .reg rs1, .num v] => (asmSimm v).map (.shl rd rs1)
  | "SHR", [.reg rd, .reg rs1, .num v] => (asmSimm v).map (.shr rd rs1)
  | "SHR1", [.reg rd, .reg rs1] => some (Pseudo.shr1 rd rs1).expand
  | "SHLV", [.reg rd, .reg rs1, .reg rs2] => some (.shlv rd rs1 rs2)
  | "SHRV", [.reg rd, .reg rs1, .reg rs2] => some (.shrv rd rs1 rs2)
  | "TESTBIT", [.reg rs1, .num v] => (asmUimm v).map (.testbit rs1)
  | "SETBIT", [.reg rd, .reg rs1, .num v] => (asmUimm v).map (.setbit rd rs1)
  | "BITLEN", [.reg rd, .reg rs1] => some (.bitlen rd rs1)
  | "CMP", [.reg rs1, .reg rs2] => some (.cmp rs1 rs2)
  | "EXPMOD", [.reg rd, .reg rs1, .reg rs2, .reg rs3] => some (.expmod rd rs1 rs2 rs3)
  | "EGCD", [.reg rd, .reg rx, .reg ry, .reg rs1, .reg rs2] => some (.egcd rd rx ry rs1 rs2)
  | "MODINV", [.reg rd, .reg rs1, .reg rs2] => some (.modinv rd rs1 rs2)
  | "MRW", [.reg rs1, .reg rs2] => some (.mrw rs1 rs2)
  | "MRTEST", [.reg rs1, .num v] => (asmUimm v).map (.mrtest rs1)
  | "MRTEST", [.reg rs1] => some (Pseudo.mrtest rs1).expand
  | _, _ => none

/-- One line of assembly: a mnemonic, then operands separated by commas; `;` starts a comment; letters in either case; a sign only
before the immediate of SHL and SHR (R120).  A line with nothing but blanks and a comment is no command: `none`. -/
def assembleLine (line : List Char) : Option Instr :=
  let code := stripBlanks ((line.takeWhile (fun c => c != ';')).map (fun c => c.toUpper))
  let name := code.takeWhile (fun c => !c.isWhitespace)
  let rest := stripBlanks (code.drop name.length)
  let parts := if rest.isEmpty then [] else splitAt ',' [] rest
  let m := String.ofList name
  if !takesSign m && parts.any (fun t => beginsWithSign (stripBlanks t)) then none
  else
    match operandsOf parts with
    | some ops => assembleOps m ops
    | none => none

end Sys2Proof
end

