-- ==== Sys2Proof/Machine/State.lean ====
section
/-! DEFINITION. The engine's state, the inputs of its step, the reasons a step can stop, and the state after reset. -/

namespace Sys2Proof.Machine

/-- CTRL's stored fields (R33); SRST is write-only and stores nothing. -/
structure Ctrl where
  /-- Interrupt enable, bit 1. -/
  ie : Bool
  /-- Window auto-increment, bit 2. -/
  ainc : Bool
deriving DecidableEq, Repr

/-- STATUS's fields (R34); its other bits read 0. -/
structure Status where
  /-- Bit 0: a command is accepted and not completed. -/
  busy : Bool
  /-- Bit 1: a command has completed. -/
  done : Bool
  /-- Bit 2: a command has completed with a fault. -/
  err : Bool
  /-- Bit 3: a host access was dropped. -/
  ovr : Bool
  /-- Bits 15..8, ERRCODE: the code of that fault, 0 while ERR = 0 (R300). -/
  errCode : BitVec 8
deriving DecidableEq, Repr

/-- FLAGS's fields (R35); its other bits read 0. -/
structure Flags where
  z : Bool
  lt : Bool
  eq : Bool
  gt : Bool
  b : Bool
deriving DecidableEq, Repr

/-- The faults a command can raise (R300). -/
inductive FaultCode where
  | illegal
  | underflow
  | divZero
  | capacity
  | domain
deriving DecidableEq, Repr

/-- The widths a host access can have (R62): 8, 16, 32 or 64 bits. -/
inductive Width where
  | w8
  | w16
  | w32
  | w64
deriving DecidableEq, Repr

/-- One host access on the host bus (R16, R61, R62).  A write's data is a number whose bits `[8k+7:8k]` are the byte at bus
address `addr + k` (R63); bits past the width are not on the bus. -/
inductive HostAccess where
  | read (addr : Nat) (width : Width)
  | write (addr : Nat) (width : Width) (data : BitVec 64)
deriving DecidableEq, Repr

/-- Whose turn a step is (R69, R310): one host access, or the engine's. -/
inductive Turn where
  | host (a : HostAccess)
  | engine
deriving DecidableEq, Repr

/-- The machine: what the spec gives the engine, then the model's own fields (the inputs of the step, and what the host has
seen). -/
structure State where
  /-- `MAXSEG` and `MMIO_BASE` (R9, R11): constants of the machine. -/
  params : Params
  /-- The BigNum registers `x[0]` to `x[15]`, each a natural number below `CAP` (R20, R21). -/
  regs : Vector Nat 16
  /-- CTRL (R33). -/
  ctrl : Ctrl
  /-- STATUS (R34). -/
  status : Status
  /-- FLAGS (R35). -/
  flags : Flags
  /-- ERRCMD: the word of the last faulted command (R37). -/
  errCmd : Word
  /-- CMDCNT: the accepted commands, modulo 2^32 (R38). -/
  cmdCnt : Word
  /-- PEND: the accepted command word, meaningful while BUSY = 1 (R48). -/
  pend : Word
  /-- WSEL.REG: the register the window shows (R39). -/
  wsel : Reg
  /-- WIDX.IDX: the segment the window shows (R40). -/
  widx : BitVec 16
  /-- The model's own: the turns still to come, next first; when none is left every turn is the engine's.
  DESIGN CHOICE (log 4): safe. -/
  schedule : List Turn
  /-- The model's own: the number the engine answered to the host's last access, none for a write or an access that did not
  reach it.  DESIGN CHOICE (log 6): safe. -/
  answer : Option (BitVec 64)
  /-- The model's own: Miller-Rabin draws supplied from outside, next first.  DESIGN CHOICE (log 3): safe. -/
  draws : List Nat
  /-- The model's own: how many draws have been taken.  DESIGN CHOICE (log 3): safe. -/
  drawsTaken : Nat
deriving DecidableEq, Repr

/-- The reasons a step stops the machine with a fault: none.  Every fault of the spec ends one command and the engine goes on
(R303, R311), every command ends (R301) and no access raises a bus error (R62), so nothing raises a value of this type.
DEDUCED (log 11): safe. -/
inductive Fault where
deriving DecidableEq, Repr

/-- The reasons an instruction has no meaning. -/
inductive Refusal where
  /-- Raised by `exec` alone, for a command that has no meaning yet: none, since every command has one.  Safe: the model stops
  where the engine goes on. -/
  | notModelled (mnemonic : String)
deriving DecidableEq, Repr

/-- The state after power-on reset of a machine with the given parameters (R340, R51): every register, flag and control field 0. -/
def State.resetWith (p : Params) : State where
  params := p
  regs := Vector.replicate 16 0
  ctrl := ⟨false, false⟩
  status := ⟨false, false, false, false, 0#8⟩
  flags := ⟨false, false, false, false, false⟩
  errCmd := 0#32
  cmdCnt := 0#32
  pend := 0#32
  wsel := 0
  widx := 0#16
  schedule := []
  answer := none
  draws := []
  drawsTaken := 0

/-- The machine right after power-on reset, with the parameters of `Params.reference` (R340, R51). -/
def State.reset : State := State.resetWith Params.reference

end Sys2Proof.Machine
end

