-- ==== Sys2Proof/Machine/Numeric.lean ====
section
/-! DEFINITION. The number and segment primitives of the spec's notation (R13, R14, R232). -/

namespace Sys2Proof.Machine

/-- `seg(v, i) = (v >> (16*i)) & 0xFFFF` (R14). -/
def seg (v i : Nat) : Nat := (v >>> (16 * i)) &&& 0xFFFF

/-- `bit(v, i) = (v >> i) & 1` (R14). -/
def bit (v i : Nat) : Nat := (v >>> i) &&& 1

/-- `bitlen(v)`: the least `k` with `v < 2^k` (R14). -/
def bitlen (v : Nat) : Nat := if v = 0 then 0 else Nat.log2 v + 1

/-- `len(v)`: the least `L` with `v < 65536^L`, the canonical segment count (R14). -/
def len (v : Nat) : Nat := if v = 0 then 0 else Nat.log2 v / 16 + 1

/-- The value of the first `n` segments a function gives, `Σ_{i<n} f(i) * 65536^i` (R21). -/
def sumSegs (f : Nat → Nat) : Nat → Nat
  | 0 => 0
  | i + 1 => sumSegs f i + f i * 65536 ^ i

/-- The zero bits of `s` from bit `n - 1` downwards until the first set bit. -/
def leadingZeros (s : Nat) : Nat → Nat
  | 0 => 0
  | n + 1 => if bit s n = 1 then 0 else leadingZeros s n + 1

/-- `clz16(s)`: the leading zero bits of a 16-bit segment (R232). -/
def clz16 (s : Nat) : Nat := leadingZeros s 16

/-- `ceil(a / b)` for `b > 0` (R255). -/
def ceilDiv (a b : Nat) : Nat := (a + b - 1) / b

end Sys2Proof.Machine
end

