-- ==== Sys2Proof/Machine/Ops.lean ====
section
/-! DEFINITION. The named operations on the state: reading and writing BigNum registers, finishing a command, raising a fault and acknowledging it, dropping an access, reset, the interrupt line, and taking a Miller-Rabin draw. -/

namespace Sys2Proof.Machine

/-- What a meaning answers. -/
abbrev Result := Host.Outcome State Fault Refusal

/-- `CAP = 65536^MAXSEG`, the exclusive upper bound of every register (R9). -/
def State.cap (s : State) : Nat := 65536 ^ s.params.maxSeg

/-- The bits of a full register, `16 * MAXSEG` (R210, R231). -/
def State.capBits (s : State) : Nat := 16 * s.params.maxSeg

/-- `x[r]` (R15). -/
def State.reg (s : State) (r : Reg) : Nat := s.regs[r]

/-- `x[r] <- v` (R15): every rule that can produce `v >= CAP` checks before it writes. -/
def State.setReg (s : State) (r : Reg) (v : Nat) : State := { s with regs := s.regs.set r v }

/-! ### Completion, faults and their acknowledgement (R301 to R306) -/

/-- The completion of a command that raised no fault: BUSY <- 0, DONE <- 1 (R301). -/
def State.finish (s : State) : State := { s with status := { s.status with busy := false, done := true } }

/-- The code STATUS.ERRCODE reports for a fault (R300). -/
def FaultCode.code : FaultCode → BitVec 8
  | .illegal => 0x01#8
  | .underflow => 0x02#8
  | .divZero => 0x03#8
  | .capacity => 0x04#8
  | .domain => 0x05#8

/-- Taking a fault, the engine's one exception (R303): no register and no flag is written; ERRCMD takes the command word, ERR
and ERRCODE say the fault, BUSY <- 0 and DONE <- 1. -/
def State.raiseFault (s : State) (f : FaultCode) : State :=
  { s with
    errCmd := s.pend
    status := { s.status with busy := false, done := true, err := true, errCode := f.code } }

/-- A host write of `w` to STATUS, the return from a fault (R305, R34): a 1 in bit 1 clears DONE, in bit 2 ERR and ERRCODE, in
bit 3 OVR; every other bit is ignored. -/
def State.acknowledge (s : State) (w : Word) : State :=
  { s with
    status :=
      { s.status with
        done := s.status.done && !(w.getLsbD 1)
        err := s.status.err && !(w.getLsbD 2)
        ovr := s.status.ovr && !(w.getLsbD 3)
        errCode := if w.getLsbD 2 then 0#8 else s.status.errCode } }

/-- Dropping a host access: OVR <- 1 and nothing else (R306). -/
def State.drop (s : State) : State := { s with status := { s.status with ovr := true } }

/-! ### The command register, the interrupt line and reset -/

/-- A host write of `w` to CMD (R36, R304): dropped while BUSY = 1 or ERR = 1, else accepted without decoding. -/
def State.submit (s : State) (w : Word) : State :=
  if s.status.busy then s.drop
  else if s.status.err then s.drop
  else
    { s with
      pend := w
      status := { s.status with busy := true, done := false }
      cmdCnt := s.cmdCnt + 1#32 }

/-- The interrupt line, `IRQ = CTRL.IE and (STATUS.DONE or STATUS.ERR)` (R45, R307). -/
def State.irq (s : State) : Bool := s.ctrl.ie && (s.status.done || s.status.err)

/-- Soft reset (R341, R342): the power-on state of R51 in one step, in every state of the engine.  The parameters and the
inputs still to come (turns, draws) are not the engine's and stay.  DEDUCED (log 8): safe. -/
def State.softReset (s : State) : State :=
  { State.resetWith s.params with schedule := s.schedule, draws := s.draws, drawsTaken := s.drawsTaken }

/-! ### Draws (R16, R268) -/

/-- Any number as a number of `[lo, hi]`: one that lies in it already stays as it is. -/
def drawInto (lo hi v : Nat) : Nat := lo + (v - lo) % (hi - lo + 1)

/-- `Draw(lo, hi)`: the next draw supplied from outside, else a free value (R16, R268).  DESIGN CHOICE (log 3): safe. -/
def State.draw (s : State) (lo hi : Nat) : Nat × State :=
  match s.draws with
  | v :: rest => (drawInto lo hi v, { s with draws := rest, drawsTaken := s.drawsTaken + 1 })
  | [] => (drawInto lo hi (Config.freeDraw s.drawsTaken), { s with drawsTaken := s.drawsTaken + 1 })

end Sys2Proof.Machine
end

