-- ==== Sys2Proof/Machine/Operands.lean ====
section
/-! DEFINITION. The operand forms of a command: its immediate read unsigned or signed (R106) and its shift count as a sign and a natural count (R211, R212). Register operands are `State.reg` (R107). -/

namespace Sys2Proof.Machine

/-- `uimm = zext_16(imm16)` (R106). -/
def uimm (imm : BitVec 16) : Nat := imm.toNat

/-- `simm = sext_16(imm16)` (R13, R106). -/
def simm (imm : BitVec 16) : Int := imm.toInt

/-- A signed shift count as whether it is nonnegative, and its absolute value: a negative count redirects to the opposite
shift by that value (R211, R212). -/
def signedCount (k : Int) : Bool × Nat := (decide (0 ≤ k), k.natAbs)

end Sys2Proof.Machine
end

