-- ==== Sys2Proof/Machine/Flags.lean ====
section
/-! DEFINITION. Every flag computation of the commands (R35), and the shared completions that write a result with its flag. -/

namespace Sys2Proof.Machine

/-- `F.Z <- (v = 0)` (R15, R35). -/
def State.setZ (s : State) (v : Nat) : State := { s with flags := { s.flags with z := decide (v = 0) } }

/-- `F.B <- b` (R35). -/
def State.setB (s : State) (b : Bool) : State := { s with flags := { s.flags with b := b } }

/-- The three flags of a comparison, exactly one of which is 1 (R233, R35). -/
def State.setOrder (s : State) (o : Ordering) : State :=
  { s with flags := { s.flags with lt := o == .lt, eq := o == .eq, gt := o == .gt } }

/-- The completion of a value-producing command: `x[rd] <- v`, `F.Z <- (v = 0)`, and the command ends (R35, R301). -/
def State.produce (s : State) (rd : Reg) (v : Nat) : State := ((s.setReg rd v).setZ v).finish

/-- The same with the check every result that may be too large passes first (R15): CAPACITY when `v >= CAP`. -/
def State.produceChecked (s : State) (rd : Reg) (v : Nat) : State :=
  if s.cap ≤ v then s.raiseFault .capacity else s.produce rd v

/-- The completion of a command whose result is one boolean: `F.B <- b`, and the command ends (R35, R301). -/
def State.answerB (s : State) (b : Bool) : State := (s.setB b).finish

end Sys2Proof.Machine
end

