-- ==== Sys2Proof/Machine/Datapath.lean ====
section
/-! DEFINITION. The engine's arithmetic units, each the spec's own algorithm on naturals and their segments: adder, subtractor, multipliers, long division, shifter, comparator, exponentiation, Extended Euclid and Miller-Rabin. Every loop recurs structurally, so every command ends (R301). -/

namespace Sys2Proof.Machine

/-! ### Adder and subtractor (R160, R161) -/

/-- The adder after its first `n` segments: the sum of those segments and the carry into segment `n` (R160). -/
def addLoop (a b : Nat) : Nat → Nat × Nat
  | 0 => (0, 0)
  | i + 1 =>
    let p := addLoop a b i
    let t := seg a i + seg b i + p.2
    (p.1 + (t % 65536) * 65536 ^ i, t / 65536)

/-- The multi-word adder: the segment sums and the carry out of the top as one more segment (R160). -/
def addChain (a b : Nat) : Nat :=
  let n := max (len a) (len b)
  let p := addLoop a b n
  p.1 + p.2 * 65536 ^ n

/-- The subtractor after its first `n` segments: their difference and the borrow into segment `n` (R161). -/
def subLoop (a b : Nat) : Nat → Nat × Nat
  | 0 => (0, 0)
  | i + 1 =>
    let p := subLoop a b i
    let t : Int := (seg a i : Int) - (seg b i : Int) - (p.2 : Int)
    if t < 0 then (p.1 + (t + 65536).toNat * 65536 ^ i, 1) else (p.1 + t.toNat * 65536 ^ i, 0)

/-- The multi-word subtractor: none when a borrow leaves the top segment (R161). -/
def subChain (a b : Nat) : Option Nat :=
  let p := subLoop a b (max (len a) (len b))
  if p.2 = 1 then none else some p.1

/-! ### Multipliers (R180 to R182) -/

/-- One row of the schoolbook product: segment `i` of `a` times the first `n` segments of `b`, added to `p` (R180). -/
def mulRow (a b i : Nat) : Nat → Nat → Nat
  | 0, p => p
  | j + 1, p => mulRow a b i j p + (seg a i * seg b j) * 65536 ^ (i + j)

/-- The schoolbook double loop over the first `n` segments of `a` (R180). -/
def mulLoop (a b : Nat) : Nat → Nat
  | 0 => 0
  | i + 1 => mulRow a b i (len b) (mulLoop a b i)

/-- The multiplier (R180). -/
def mulSchool (a b : Nat) : Nat := mulLoop a b (len a)

/-- The one-segment multiplier after its first `n` segments: the product's segments and the carry (R181). -/
def muliLoop (a m : Nat) : Nat → Nat × Nat
  | 0 => (0, 0)
  | i + 1 =>
    let p := muliLoop a m i
    let t := seg a i * m + p.2
    (p.1 + (t % 65536) * 65536 ^ i, t / 65536)

/-- Multiplication by one segment (R181). -/
def muliChain (a m : Nat) : Nat :=
  let p := muliLoop a m (len a)
  p.1 + p.2 * 65536 ^ len a

/-- The modular multiplier's loop from segment `n - 1` down, reducing after each segment (R182). -/
def mulModLoop (a b n : Nat) : Nat → Nat → Nat
  | 0, acc => acc
  | i + 1, acc => mulModLoop a b n i ((acc * 65536 + seg a i * b) % n)

/-- `MulMod(a, b, n)` for `n > 0` (R182). -/
def mulMod (a b n : Nat) : Nat := mulModLoop a b n (len a) 0

/-! ### Long division (R183) -/

/-- The long-division loop for the shift amounts `n - 1` down to 0: divisor `d` shifted, running remainder `r`, partial
quotient `q` (R183). -/
def divideLoop : Nat → Nat → Nat → Nat → Nat × Nat
  | 0, _, r, q => (q, r)
  | k + 1, d, r, q =>
    if d ≤ r then divideLoop k (d >>> 1) (r - d) (q ||| (1 <<< k))
    else divideLoop k (d >>> 1) r q

/-- `LongDivide(a, b)` for `b > 0`: quotient and remainder (R183). -/
def longDivide (a b : Nat) : Nat × Nat :=
  if b ≤ a then
    let s := bitlen a - bitlen b
    divideLoop (s + 1) (b <<< s) a 0
  else (0, a)

/-! ### Shifter (R210) -/

/-- Segment `i` of a left shift by `w` whole segments and `s` bits (R210). -/
def shiftLeftSeg (a w s i : Nat) : Nat :=
  let hi := if w ≤ i then seg a (i - w) else 0
  let lo := if w + 1 ≤ i then seg a (i - w - 1) else 0
  if s = 0 then hi else ((hi <<< s) ||| (lo >>> (16 - s))) &&& 0xFFFF

/-- The left shifter in a register of at most `capBits` bits: none when the result needs more (R210). -/
def shiftLeft (capBits a k : Nat) : Option Nat :=
  if a = 0 then some 0
  else if capBits < bitlen a + k then none
  else some (sumSegs (shiftLeftSeg a (k / 16) (k % 16)) (len a + k / 16 + 1))

/-- Segment `i` of a right shift by `w` whole segments and `s` bits (R210). -/
def shiftRightSeg (a w s i : Nat) : Nat :=
  let lo := seg a (i + w)
  let hi := seg a (i + w + 1)
  if s = 0 then lo else ((lo >>> s) ||| (hi <<< (16 - s))) &&& 0xFFFF

/-- The right shifter (R210). -/
def shiftRight (a k : Nat) : Nat := sumSegs (shiftRightSeg a (k / 16) (k % 16)) (len a)

/-- A left shift by a signed count: a negative count is a right shift (R211). -/
def shiftLeftSigned (capBits a : Nat) (k : Int) : Option Nat :=
  match signedCount k with
  | (true, n) => shiftLeft capBits a n
  | (false, n) => some (shiftRight a n)

/-- A right shift by a signed count: a negative count is a left shift (R212). -/
def shiftRightSigned (capBits a : Nat) (k : Int) : Option Nat :=
  match signedCount k with
  | (true, n) => some (shiftRight a n)
  | (false, n) => shiftLeft capBits a n

/-! ### Bit length and comparison (R232, R234) -/

/-- The bit length from the top segment (R232). -/
def bitLength (a : Nat) : Nat := if a = 0 then 0 else 16 * len a - clz16 (seg a (len a - 1))

/-- The comparison of the segments `n - 1` down to 0 (R234). -/
def compareLoop (a b : Nat) : Nat → Ordering
  | 0 => .eq
  | i + 1 =>
    if seg a i ≠ seg b i then (if seg a i < seg b i then .lt else .gt) else compareLoop a b i

/-- `Compare(a, b)`: segment count first, then the most significant segment that differs (R234). -/
def compareSegs (a b : Nat) : Ordering :=
  if len a ≠ len b then (if len a < len b then .lt else .gt) else compareLoop a b (len a)

/-! ### Modular exponentiation (R250) -/

/-- Square and multiply over the exponent's bits `n - 1` down to 0 (R250). -/
def expLoop (a b c : Nat) : Nat → Nat → Nat
  | 0, d => d
  | i + 1, d =>
    let d1 := mulMod d d c
    expLoop a b c i (if bit b i = 1 then mulMod d1 a c else d1)

/-- `ExpMod(a, b, c)` for `c > 0` (R250). -/
def expMod (a b c : Nat) : Nat := expLoop a b c (bitlen b) (1 % c)

/-! ### Extended Euclid (R255) -/

/-- The recurrence of R255 with as many levels as `fuel` allows; `extendedEuclid` gives enough (log 12). -/
def euclidLoop : Nat → Nat → Nat → Nat × Nat × Nat
  | 0, a, _ => (a, 1, 0)
  | fuel + 1, a, b =>
    if b = 0 then (a, 1, 0)
    else
      let t := euclidLoop fuel b (a % b)
      let d := t.1
      let x1 := t.2.1
      let y1 := t.2.2
      let q := a / b
      let m := max (ceilDiv y1 b) (ceilDiv (x1 + q * y1) a)
      (d, m * b - y1, m * a - x1 - q * y1)

/-- `EE(a, b)` (R255): the second argument falls at every level, so `b + 1` levels reach 0. -/
def extendedEuclid (a b : Nat) : Nat × Nat × Nat := euclidLoop (b + 1) a b

/-- `MultiplicativeInverse(a, n)` for `n > 0`: the inverse, or none (R260). -/
def modInverse (a n : Nat) : Option Nat :=
  if n = 1 then some 0
  else if a = 0 then none
  else
    let t := extendedEuclid a n
    if t.1 = 1 then some (t.2.1 % n) else none

/-! ### Miller-Rabin (R265, R268, R269) -/

/-- The witness loop over the bits `k - 1` down to 0 of `n - 1`, with running value `d` (R265). -/
def witnessLoop (a n : Nat) : Nat → Nat → Bool
  | 0, d => decide (d ≠ 1)
  | i + 1, d =>
    let d1 := mulMod d d n
    if d1 = 1 ∧ d ≠ 1 ∧ d ≠ n - 1 then true
    else witnessLoop a n i (if bit (n - 1) i = 1 then mulMod d1 a n else d1)

/-- `Witness(a, n)` for `n > 0`: true means composite (R265). -/
def witness (a n : Nat) : Bool := witnessLoop a n (bitlen (n - 1)) 1

/-- The rounds of `MillerRabinIsComposite(n, rounds)` for `n > 0`: each draws a base, and the first witness ends them (R268,
R269).  The verdict, and the state with the draws taken. -/
def testRounds (n : Nat) : Nat → State → Bool × State
  | 0, s => (false, s)
  | r + 1, s =>
    let d := s.draw 1 (max 1 (n - 1))
    if witness d.1 n then (true, d.2) else testRounds n r d.2

end Sys2Proof.Machine
end

