-- ==== Sys2Proof/Machine/AddSub.lean ====
section
/-! DEFINITION. The multi-word adder and subtractor: ADD, SUB (R160, R161). -/

namespace Sys2Proof.Machine

/-- ADD rd, rs1, rs2 (R160): CAPACITY when the sum needs more than MAXSEG segments. -/
def execAdd (rd rs1 rs2 : Reg) (s : State) : Result :=
  .next (s.produceChecked rd (addChain (s.reg rs1) (s.reg rs2)))

/-- SUB rd, rs1, rs2 (R161): UNDERFLOW when a borrow leaves the top segment. -/
def execSub (rd rs1 rs2 : Reg) (s : State) : Result :=
  match subChain (s.reg rs1) (s.reg rs2) with
  | none => .next (s.raiseFault .underflow)
  | some r => .next (s.produce rd r)

end Sys2Proof.Machine
end

