-- ==== Sys2Proof/Machine/BitsCompare.lean ====
section
/-! DEFINITION. Bit access and comparison: TESTBIT, SETBIT, BITLEN, CMP (R230 to R233). -/

namespace Sys2Proof.Machine

/-- TESTBIT rs1, uimm (R230): every index is legal. -/
def execTestbit (rs1 : Reg) (imm : BitVec 16) (s : State) : Result :=
  .next (s.answerB (bit (s.reg rs1) (uimm imm) == 1))

/-- SETBIT rd, rs1, uimm (R231): CAPACITY when the register cannot hold the bit. -/
def execSetbit (rd rs1 : Reg) (imm : BitVec 16) (s : State) : Result :=
  if s.capBits ≤ uimm imm then .next (s.raiseFault .capacity)
  else .next (s.produce rd (s.reg rs1 ||| (1 <<< uimm imm)))

/-- BITLEN rd, rs1 (R232). -/
def execBitlen (rd rs1 : Reg) (s : State) : Result := .next (s.produce rd (bitLength (s.reg rs1)))

/-- CMP rs1, rs2 (R233). -/
def execCmp (rs1 rs2 : Reg) (s : State) : Result :=
  .next (s.setOrder (compareSegs (s.reg rs1) (s.reg rs2))).finish

end Sys2Proof.Machine
end

