-- ==== Sys2Proof/Machine/Construct.lean ====
section
/-! DEFINITION. Construction and copy: NOP, CLR, LDI, MOV (R140 to R143). -/

namespace Sys2Proof.Machine

/-- NOP (R140): only the completion. -/
def execNop (s : State) : Result := .next s.finish

/-- CLR rd (R141). -/
def execClr (rd : Reg) (s : State) : Result := .next (s.produce rd 0)

/-- LDI rd, uimm (R142). -/
def execLdi (rd : Reg) (imm : BitVec 16) (s : State) : Result := .next (s.produce rd (uimm imm))

/-- MOV rd, rs1 (R143). -/
def execMov (rd rs1 : Reg) (s : State) : Result := .next (s.produce rd (s.reg rs1))

end Sys2Proof.Machine
end

