-- ==== Sys2Proof/Machine/MulDiv.lean ====
section
/-! DEFINITION. The multiplier and the long-division engine: MUL, MULI, MULMOD, DIV, MOD, DIVMOD (R180 to R186). -/

namespace Sys2Proof.Machine

/-- MUL rd, rs1, rs2 (R180): CAPACITY on the final product only. -/
def execMul (rd rs1 rs2 : Reg) (s : State) : Result :=
  .next (s.produceChecked rd (mulSchool (s.reg rs1) (s.reg rs2)))

/-- MULI rd, rs1, uimm (R181). -/
def execMuli (rd rs1 : Reg) (imm : BitVec 16) (s : State) : Result :=
  .next (s.produceChecked rd (muliChain (s.reg rs1) (uimm imm)))

/-- MULMOD rd, rs1, rs2, rs3 (R182): DIVZERO when the modulus is 0. -/
def execMulmod (rd rs1 rs2 rs3 : Reg) (s : State) : Result :=
  if s.reg rs3 = 0 then .next (s.raiseFault .divZero)
  else .next (s.produce rd (mulMod (s.reg rs1) (s.reg rs2) (s.reg rs3)))

/-- DIV rd, rs1, rs2 (R184). -/
def execDiv (rd rs1 rs2 : Reg) (s : State) : Result :=
  if s.reg rs2 = 0 then .next (s.raiseFault .divZero)
  else .next (s.produce rd (longDivide (s.reg rs1) (s.reg rs2)).1)

/-- MOD rd, rs1, rs2 (R185). -/
def execMod (rd rs1 rs2 : Reg) (s : State) : Result :=
  if s.reg rs2 = 0 then .next (s.raiseFault .divZero)
  else .next (s.produce rd (longDivide (s.reg rs1) (s.reg rs2)).2)

/-- DIVMOD rd, rr, rs1, rs2 (R186): both results, Z from the quotient.  Equal destinations are no instruction (R112), and the
decoder refuses them. -/
def execDivmod (rd rr rs1 rs2 : Reg) (s : State) : Result :=
  if s.reg rs2 = 0 then .next (s.raiseFault .divZero)
  else
    let p := longDivide (s.reg rs1) (s.reg rs2)
    .next ((((s.setReg rd p.1).setReg rr p.2).setZ p.1).finish)

end Sys2Proof.Machine
end

