-- ==== Sys2Proof/Machine/NumberTheory.lean ====
section
/-! DEFINITION. The number-theory engines: EXPMOD, EGCD, MODINV, MRW, MRTEST (R251, R256, R260, R266, R269). -/

namespace Sys2Proof.Machine

/-- EXPMOD rd, rs1, rs2, rs3 (R251): DIVZERO when the modulus is 0. -/
def execExpmod (rd rs1 rs2 rs3 : Reg) (s : State) : Result :=
  if s.reg rs3 = 0 then .next (s.raiseFault .divZero)
  else .next (s.produce rd (expMod (s.reg rs1) (s.reg rs2) (s.reg rs3)))

/-- EGCD rd, rx, ry, rs1, rs2 (R256): DOMAIN, then CAPACITY of a coefficient; Z from the gcd.  Equal destinations are no
instruction (R112), and the decoder refuses them. -/
def execEgcd (rd rx ry rs1 rs2 : Reg) (s : State) : Result :=
  if s.reg rs1 = 0 ∧ s.reg rs2 ≠ 0 then .next (s.raiseFault .domain)
  else
    let t := extendedEuclid (s.reg rs1) (s.reg rs2)
    if s.cap ≤ t.2.1 ∨ s.cap ≤ t.2.2 then .next (s.raiseFault .capacity)
    else .next (((((s.setReg rd t.1).setReg rx t.2.1).setReg ry t.2.2).setZ t.1).finish)

/-- MODINV rd, rs1, rs2 (R260): without an inverse only B is written. -/
def execModinv (rd rs1 rs2 : Reg) (s : State) : Result :=
  if s.reg rs2 = 0 then .next (s.raiseFault .divZero)
  else
    match modInverse (s.reg rs1) (s.reg rs2) with
    | some r => .next ((s.setB false).produce rd r)
    | none => .next (s.answerB true)

/-- MRW rs1, rs2 (R266): UNDERFLOW when n = 0. -/
def execMrw (rs1 rs2 : Reg) (s : State) : Result :=
  if s.reg rs2 = 0 then .next (s.raiseFault .underflow)
  else .next (s.answerB (witness (s.reg rs1) (s.reg rs2)))

/-- MRTEST rs1, uimm (R269): UNDERFLOW when n = 0, before any draw; the draws taken are gone from the inputs. -/
def execMrtest (rs1 : Reg) (imm : BitVec 16) (s : State) : Result :=
  if s.reg rs1 = 0 then .next (s.raiseFault .underflow)
  else
    let p := testRounds (s.reg rs1) (uimm imm) s
    .next (p.2.answerB p.1)

end Sys2Proof.Machine
end

