-- ==== Sys2Proof/Machine/Shift.lean ====
section
/-! DEFINITION. The arbitrary-bit shifter: SHL, SHR, SHLV, SHRV (R211 to R214). -/

namespace Sys2Proof.Machine

/-- The completion of a shift (R210): CAPACITY when the shifter gives no result. -/
def State.shifted (s : State) (rd : Reg) (r : Option Nat) : State :=
  match r with
  | none => s.raiseFault .capacity
  | some v => s.produce rd v

/-- SHL rd, rs1, simm (R211): a negative count shifts right. -/
def execShl (rd rs1 : Reg) (imm : BitVec 16) (s : State) : Result :=
  .next (s.shifted rd (shiftLeftSigned s.capBits (s.reg rs1) (simm imm)))

/-- SHR rd, rs1, simm (R212): a negative count shifts left. -/
def execShr (rd rs1 : Reg) (imm : BitVec 16) (s : State) : Result :=
  .next (s.shifted rd (shiftRightSigned s.capBits (s.reg rs1) (simm imm)))

/-- SHLV rd, rs1, rs2 (R213): the count is a register's value. -/
def execShlv (rd rs1 rs2 : Reg) (s : State) : Result :=
  .next (s.shifted rd (shiftLeft s.capBits (s.reg rs1) (s.reg rs2)))

/-- SHRV rd, rs1, rs2 (R214): never faults. -/
def execShrv (rd rs1 rs2 : Reg) (s : State) : Result :=
  .next (s.produce rd (shiftRight (s.reg rs1) (s.reg rs2)))

end Sys2Proof.Machine
end

