-- ==== Sys2Proof/Machine/Dispatch.lean ====
section
/-! DEFINITION. The completion of each command, one arm per constructor (R108, R301). -/

namespace Sys2Proof.Machine

-- The completion of the command `i` whose word is PEND: its whole effect, the STATUS changes of R301 and R303 included.
def exec (i : Instr) (s : State) : Host.Outcome State Fault Refusal :=
  match i with
  | .nop => Sys2Proof.Machine.execNop s
  | .clr rd => Sys2Proof.Machine.execClr rd s
  | .ldi rd imm => Sys2Proof.Machine.execLdi rd imm s
  | .mov rd rs1 => Sys2Proof.Machine.execMov rd rs1 s
  | .add rd rs1 rs2 => Sys2Proof.Machine.execAdd rd rs1 rs2 s
  | .sub rd rs1 rs2 => Sys2Proof.Machine.execSub rd rs1 rs2 s
  | .mul rd rs1 rs2 => Sys2Proof.Machine.execMul rd rs1 rs2 s
  | .muli rd rs1 imm => Sys2Proof.Machine.execMuli rd rs1 imm s
  | .mulmod rd rs1 rs2 rs3 => Sys2Proof.Machine.execMulmod rd rs1 rs2 rs3 s
  | .div rd rs1 rs2 => Sys2Proof.Machine.execDiv rd rs1 rs2 s
  | .mod rd rs1 rs2 => Sys2Proof.Machine.execMod rd rs1 rs2 s
  | .divmod rd rr rs1 rs2 => Sys2Proof.Machine.execDivmod rd rr rs1 rs2 s
  | .shl rd rs1 imm => Sys2Proof.Machine.execShl rd rs1 imm s
  | .shr rd rs1 imm => Sys2Proof.Machine.execShr rd rs1 imm s
  | .shlv rd rs1 rs2 => Sys2Proof.Machine.execShlv rd rs1 rs2 s
  | .shrv rd rs1 rs2 => Sys2Proof.Machine.execShrv rd rs1 rs2 s
  | .testbit rs1 imm => Sys2Proof.Machine.execTestbit rs1 imm s
  | .setbit rd rs1 imm => Sys2Proof.Machine.execSetbit rd rs1 imm s
  | .bitlen rd rs1 => Sys2Proof.Machine.execBitlen rd rs1 s
  | .cmp rs1 rs2 => Sys2Proof.Machine.execCmp rs1 rs2 s
  | .expmod rd rs1 rs2 rs3 => Sys2Proof.Machine.execExpmod rd rs1 rs2 rs3 s
  | .egcd rd rx ry rs1 rs2 => Sys2Proof.Machine.execEgcd rd rx ry rs1 rs2 s
  | .modinv rd rs1 rs2 => Sys2Proof.Machine.execModinv rd rs1 rs2 s
  | .mrw rs1 rs2 => Sys2Proof.Machine.execMrw rs1 rs2 s
  | .mrtest rs1 imm => Sys2Proof.Machine.execMrtest rs1 imm s

end Sys2Proof.Machine
end

