-- ==== Sys2Proof/Machine/Window.lean ====
section
/-! DEFINITION. The host register window: its map, each register's read and write, and a host access with its width, alignment and byte lanes (R30 to R45, R60 to R67, R306). -/

namespace Sys2Proof.Machine

/-- The registers of the window's map, and a reserved word (R30, R44). -/
inductive WinReg where
  | id
  | param
  | ctrl
  | status
  | flags
  | cmd
  | errcmd
  | cmdcnt
  | wsel
  | widx
  | wdata
  | wlen
  | wbits
  | reserved
deriving DecidableEq, Repr

/-- The register at an aligned byte offset of the window (R30, R67). -/
def winRegAt (offset : Nat) : WinReg :=
  match offset with
  | 0x000 => .id
  | 0x004 => .param
  | 0x008 => .ctrl
  | 0x00C => .status
  | 0x010 => .flags
  | 0x014 => .cmd
  | 0x018 => .errcmd
  | 0x01C => .cmdcnt
  | 0x020 => .wsel
  | 0x024 => .widx
  | 0x028 => .wdata
  | 0x02C => .wlen
  | 0x030 => .wbits
  | _ => .reserved

/-! ### The registers as words -/

/-- A flag as one bit. -/
def bit1 (b : Bool) : BitVec 1 := BitVec.ofBool b

/-- PARAM (R32): `{12'b0, 4'hF, MAXSEG[15:0]}`. -/
def State.paramWord (s : State) : Word := 0#12 ++ Config.nregMinusOne ++ BitVec.ofNat 16 s.params.maxSeg

/-- CTRL as read (R33): SRST reads 0. -/
def Ctrl.word (c : Ctrl) : Word := 0#29 ++ bit1 c.ainc ++ bit1 c.ie ++ 0#1

/-- STATUS as read (R34). -/
def Status.word (t : Status) : Word :=
  0#16 ++ t.errCode ++ 0#4 ++ bit1 t.ovr ++ bit1 t.err ++ bit1 t.done ++ bit1 t.busy

/-- FLAGS as read (R35). -/
def Flags.word (f : Flags) : Word := 0#27 ++ bit1 f.b ++ bit1 f.gt ++ bit1 f.eq ++ bit1 f.lt ++ bit1 f.z

/-! ### Host reads and writes of one register (R31 to R44) -/

/-- The auto-increment after a WDATA access that is not dropped for BUSY: `IDX <- (IDX + 1) mod 65536` when AINC = 1 (R40, R41). -/
def State.advance (s : State) : State := if s.ctrl.ainc then { s with widx := s.widx + 1#16 } else s

/-- A read that is dropped with OVR while BUSY = 1 and answers 0 (R41 to R43, R306); otherwise the given word. -/
def State.readIdle (s : State) (v : Word) : Word × State := if s.status.busy then (0#32, s.drop) else (v, s)

/-- A host read of one register: the word it answers and the state it leaves (R31 to R44, R66). -/
def State.readReg (s : State) (r : WinReg) : Word × State :=
  match r with
  | .id => (Config.idValue, s)
  | .param => (s.paramWord, s)
  | .ctrl => (s.ctrl.word, s)
  | .status => (s.status.word, s)
  | .flags => (s.flags.word, s)
  | .cmd => (0#32, s)
  | .errcmd => (s.errCmd, s)
  | .cmdcnt => (s.cmdCnt, s)
  | .wsel => (0#28 ++ regBits s.wsel, s)
  | .widx => (0#16 ++ s.widx, s)
  | .wdata =>
    if s.status.busy then (0#32, s.drop)
    else
      let i := s.widx.toNat
      (if i < s.params.maxSeg then BitVec.ofNat 32 (seg (s.reg s.wsel) i) else 0#32, s.advance)
  | .wlen => s.readIdle (BitVec.ofNat 32 (len (s.reg s.wsel)))
  | .wbits => s.readIdle (BitVec.ofNat 32 (bitlen (s.reg s.wsel)))
  | .reserved => (0#32, s)

/-- Segment `i` of a value replaced by `w` (R41). -/
def replaceSeg (v i w : Nat) : Nat := v - seg v i * 65536 ^ i + w * 65536 ^ i

/-- A host write of `w` to WDATA (R41): dropped while BUSY = 1; dropped past the capacity, but the index still advances; else
segment IDX of register REG takes `w[15:0]`. -/
def State.writeData (s : State) (w : Word) : State :=
  if s.status.busy then s.drop
  else
    let i := s.widx.toNat
    if s.params.maxSeg ≤ i then s.drop.advance
    else (s.setReg s.wsel (replaceSeg (s.reg s.wsel) i (w.extractLsb' 0 16).toNat)).advance

/-- A host write of `w` to CTRL (R33): a soft reset when SRST = 1, else IE and AINC are stored. -/
def State.writeCtrl (s : State) (w : Word) : State :=
  if w.getLsbD 0 then s.softReset else { s with ctrl := ⟨w.getLsbD 1, w.getLsbD 2⟩ }

/-- A host write of one register (R31 to R44, R66). -/
def State.writeReg (s : State) (r : WinReg) (w : Word) : State :=
  match r with
  | .id => s
  | .param => s
  | .ctrl => s.writeCtrl w
  | .status => s.acknowledge w
  | .flags => s
  | .cmd => s.submit w
  | .errcmd => s
  | .cmdcnt => s
  | .wsel => { s with wsel := regField w 0 }
  | .widx => { s with widx := w.extractLsb' 0 16 }
  | .wdata => s.writeData w
  | .wlen => s
  | .wbits => s
  | .reserved => s

/-! ### Host accesses (R61 to R63) -/

/-- Whether a bus address lies in the engine's window (R61). -/
def State.inWindow (s : State) (addr : Nat) : Bool :=
  decide (s.params.mmioBase ≤ addr) && decide (addr < s.params.mmioBase + Config.windowBytes)

/-- The one defined shape of an access: 32 bits at an offset that is a multiple of 4 (R62). -/
def wholeWord (width : Width) (offset : Nat) : Bool := width == .w32 && offset % 4 == 0

/-- One host access (R61 to R63): outside the window nothing of the engine changes and it answers nothing; in it, any shape but
an aligned 32-bit access is dropped and a read answers 0. -/
def State.access (s : State) (a : HostAccess) : State :=
  match a with
  | .read addr width =>
    if s.inWindow addr then
      let offset := addr - s.params.mmioBase
      if wholeWord width offset then
        let p := s.readReg (winRegAt offset)
        { p.2 with answer := some (p.1.setWidth 64) }
      else { s.drop with answer := some 0#64 }
    else { s with answer := none }
  | .write addr width data =>
    if s.inWindow addr then
      let offset := addr - s.params.mmioBase
      if wholeWord width offset then
        { s.writeReg (winRegAt offset) (data.setWidth 32) with answer := none }
      else { s.drop with answer := none }
    else { s with answer := none }

/-- The byte lane `k` of a number on the bus: bits `[8k+7:8k]` (R63). -/
def lane (v : BitVec 64) (k : Nat) : Byte := v.extractLsb' (8 * k) 8

end Sys2Proof.Machine
end

