-- ==== Sys2Proof/Machine/Engine.lean ====
section
/-! DEFINITION. The engine's completion step, the turn of either agent, and a command put where the next step runs it (R301, R69, R310). -/

namespace Sys2Proof.Machine

/-- The completion step (R301): PEND is decoded and run; a word that is no command is the fault ILLEGAL (R110 to R112). -/
def complete (s : State) : Result :=
  match decodeWord s.pend with
  | .ok i => exec i s
  | .error _ => .next (s.raiseFault .illegal)

/-- The engine's turn: completion when BUSY = 1 (R301); an idle engine takes no step and keeps its state (R318). -/
def engineTurn (s : State) : Result := if s.status.busy then complete s else .next s

/-- One turn (R69, R310): the next of the schedule, and the engine's when none is left, so that an accepted command always
completes (R301).  DESIGN CHOICE (log 4): safe. -/
def takeTurn (s : State) : Result :=
  match s.schedule with
  | [] => engineTurn s
  | .engine :: rest => engineTurn { s with schedule := rest }
  | .host a :: rest => .next (State.access { s with schedule := rest } a)

/-- The command word `w` accepted (R36, R48) and the next turn the engine's, so that the next step completes it.
DESIGN CHOICE (log 5): safe. -/
def State.withCommand (s : State) (w : Word) : State :=
  { s with
    pend := w
    status := { s.status with busy := true }
    schedule := .engine :: s.schedule }

end Sys2Proof.Machine
end

