-- ==== Sys2Proof/Machine/Step.lean ====
section
/-! DEFINITION. One step of the machine, and a command placed where the next step runs it. -/

namespace Sys2Proof.Machine

/-- One step: the turn of one agent (R69, R301). -/
def step (s : State) : Host.Outcome State Fault Refusal := takeTurn s

/-- The command whose bits are `w`, placed where the very next step completes it (log 5). -/
def State.withFetchWord (s : State) (nbits w : Nat) : State := s.withCommand (tableWord nbits w)

end Sys2Proof.Machine
end

