-- ==== Sys2Proof/Safety.lean ====
section
/-! DEFINITION. What a state must satisfy to be one the engine can be in: legal parameters, bounded registers, and the relations the spec states between STATUS and FLAGS fields. -/

namespace Sys2Proof.Machine

/-- Every register holds a value below `CAP` (R20). -/
abbrev State.RegsBounded (s : State) : Prop := ∀ r : Reg, s.reg r < s.cap

/-- ERRCODE is 0 exactly while ERR = 0, and otherwise one of the five codes of R300 (R34). -/
abbrev Status.ErrCoded (t : Status) : Prop :=
  (t.err = false → t.errCode = 0#8) ∧ (t.err = true → 1 ≤ t.errCode.toNat ∧ t.errCode.toNat ≤ 5)

/-- While a command is pending, DONE and ERR are 0 (R34, R36, R304). -/
abbrev Status.BusyClean (t : Status) : Prop := t.busy = true → t.done = false ∧ t.err = false

/-- At most one of LT, EQ and GT is 1 (R35). -/
abbrev Flags.OrderExclusive (f : Flags) : Prop :=
  ¬(f.lt = true ∧ f.eq = true) ∧ ¬(f.lt = true ∧ f.gt = true) ∧ ¬(f.eq = true ∧ f.gt = true)

/-- What every reachable state of a machine with legal parameters satisfies. -/
abbrev State.Inv (s : State) : Prop :=
  s.params.legal ∧ s.RegsBounded ∧ s.status.ErrCoded ∧ s.status.BusyClean ∧ s.flags.OrderExclusive

/-! ### The terms claims use -/

/-- `t` is `s` after a completion without a fault (R301): the registers read as `reg` says, FLAGS is `fl`, BUSY is 0 and DONE is
1, and nothing else of the state has changed. -/
def State.Completed (s t : State) (reg : Reg → Nat) (fl : Flags) : Prop :=
  (∀ q : Reg, t.reg q = reg q) ∧
    t = { s with regs := t.regs, flags := fl, status := { s.status with busy := false, done := true } }

/-- The registers of `s` with `v` in `rd`. -/
def State.withReg (s : State) (rd : Reg) (v : Nat) : Reg → Nat := fun q => if q = rd then v else s.reg q

/-- FLAGS of `s` with Z written from `v`. -/
def State.withZ (s : State) (v : Nat) : Flags := { s.flags with z := decide (v = 0) }

/-- `s` after a completion with the fault of code `c` (R303): ERRCMD is PEND, ERR and DONE are 1, ERRCODE is `c`, BUSY is 0, and
nothing else of the state has changed. -/
def State.faulted (s : State) (c : BitVec 8) : State :=
  { s with errCmd := s.pend, status := { s.status with busy := false, done := true, err := true, errCode := c } }

/-- A 32-bit host write of `w` at an offset of the window (R62). -/
def State.hostWrite (s : State) (offset : Nat) (w : Word) : State :=
  s.access (.write (s.params.mmioBase + offset) .w32 (w.setWidth 64))

/-- A 32-bit host read at an offset of the window (R62); `answer` holds what it read. -/
def State.hostRead (s : State) (offset : Nat) : State := s.access (.read (s.params.mmioBase + offset) .w32)

end Sys2Proof.Machine
end

