-- ==== Sys2Proof/Certificates/Slice0/Obligations.lean ====
section
/-! DEFINITION. The statements for the provers. -/

open Sys2Proof Sys2Proof.Machine

/-! ### Encoding -/

/-- Words written out from R109 and R123 decode to the commands they stand for, and three illegal words (R110 to R112) to none. -/
def Obligations.SampleWordsDecode : Prop :=
  decodeWord 0x00000000#32 = .ok .nop ∧ decodeWord 0x0210FFFF#32 = .ok (.ldi 1 0xFFFF#16) ∧
  decodeWord 0x10201000#32 = .ok (.add 2 0 1) ∧ decodeWord 0x2A201300#32 = .ok (.divmod 2 3 0 1) ∧
  decodeWord 0x3033FFFF#32 = .ok (.shl 3 3 0xFFFF#16) ∧ decodeWord 0x40000010#32 = .ok (.testbit 0 16#16) ∧
  decodeWord 0x51401560#32 = .ok (.egcd 4 5 6 0 1) ∧ decodeWord 0x59030014#32 = .ok (.mrtest 3 20#16) ∧
  decodeWord 0xFF000000#32 = .error .unassignedOpcode ∧ decodeWord 0x00000001#32 = .error .mustBeZeroBits ∧
  decodeWord 0x2A202200#32 = .error .equalDestinations

/-- Decoding the word of a well-formed command gives the command back, with every operand at every value (R109, R123). -/
def Obligations.DecodeOfEncode : Prop :=
  ∀ i : Instr, i.WellFormed → decodeWord (encode i) = .ok i

/-- A word that decodes is the word of the command it decodes to, and that command is well formed (R109, R112, R114). -/
def Obligations.EncodeOfDecode : Prop :=
  ∀ (w : Word) (i : Instr), decodeWord w = .ok i → encode i = w ∧ i.WellFormed

/-- Decoding is total (R114): a word is a command exactly when it selects a row of R109 and, read as that row's command, its
destinations are distinct; no word selects two rows.
Which reason the decoder names for a word that is none, and that it names the must-be-zero bits where equal destinations fail too,
is the model's choice (log 21): the rules give one outcome, ILLEGAL. -/
def Obligations.DecodingTotalAndUnambiguous : Prop :=
  (∀ (w : Word) (r r' : Row), r ∈ opcodeTable → r' ∈ opcodeTable → r.selects w = true → r'.selects w = true → r = r') ∧
  (∀ (w : Word) (i : Instr), decodeWord w = .ok i → i.row ∈ opcodeTable ∧ i.row.selects w = true ∧ i.WellFormed) ∧
  (∀ w : Word, (∃ r ∈ opcodeTable, r.selects w = true) →
    (∃ i, decodeWord w = .ok i) ∨ decodeWord w = .error .equalDestinations) ∧
  (∀ w : Word, (∀ r ∈ opcodeTable, r.selects w = false) →
    decodeWord w = .error .unassignedOpcode ∨ decodeWord w = .error .mustBeZeroBits)

/-- A word with an unassigned opcode (R110), with an assigned opcode and nonzero must-be-zero bits (R111), or with equal
destinations (R112) is accepted by an idle engine and completes with the fault ILLEGAL, code 1. -/
def Obligations.IllegalWordsFault : Prop :=
  ∀ (s : State) (w : Word), s.status.busy = false → s.status.err = false →
    ((opcodeOf w).toNat ∉ [0x00, 0x01, 0x02, 0x03, 0x10, 0x11, 0x20, 0x21, 0x22, 0x28, 0x29, 0x2A, 0x30, 0x31, 0x32, 0x33,
        0x40, 0x41, 0x42, 0x48, 0x50, 0x51, 0x52, 0x58, 0x59] ∨
      (∃ r ∈ opcodeTable, opcodeOf w = opcodeOf r.pattern ∧ w &&& r.mask ≠ r.pattern) ∨
      (opcodeOf w = 0x2A#8 ∧ regField w 20 = regField w 8) ∨
      (opcodeOf w = 0x51#8 ∧
        (regField w 20 = regField w 8 ∨ regField w 20 = regField w 4 ∨ regField w 8 = regField w 4))) →
    (s.submit w).pend = w ∧ (s.submit w).status.busy = true ∧
      engineTurn (s.submit w) = .next ((s.submit w).faulted 0x01#8)

/-- The assembler's immediates (R106, R120): accepted exactly in range, and read back by the command as the number written. -/
def Obligations.AssemblerImmediates : Prop :=
  (∀ v : Int, (asmUimm v = none ↔ ¬(0 ≤ v ∧ v ≤ 65535)) ∧ ∀ b, asmUimm v = some b → (uimm b : Int) = v) ∧
  (∀ v : Int, (asmSimm v = none ↔ ¬(-32768 ≤ v ∧ v ≤ 32767)) ∧ ∀ b, asmSimm v = some b → simm b = v)

/-- The assembler's operand order (R121): a mnemonic's operands name the fields of its command in that order, immediates passing
the range check of R120, and an immediate out of its range refused; and the pseudo-instructions are the commands R122 gives. -/
def Obligations.AssemblerOperandOrder : Prop :=
  (∀ (rd rr rs1 rs2 rs3 : Reg),
    assembleOps "NOP" [] = some .nop ∧ assembleOps "CLR" [.reg rd] = some (.clr rd) ∧
    assembleOps "MOV" [.reg rd, .reg rs1] = some (.mov rd rs1) ∧
    assembleOps "ADD" [.reg rd, .reg rs1, .reg rs2] = some (.add rd rs1 rs2) ∧
    assembleOps "SUB" [.reg rd, .reg rs1, .reg rs2] = some (.sub rd rs1 rs2) ∧
    assembleOps "MUL" [.reg rd, .reg rs1, .reg rs2] = some (.mul rd rs1 rs2) ∧
    assembleOps "MULMOD" [.reg rd, .reg rs1, .reg rs2, .reg rs3] = some (.mulmod rd rs1 rs2 rs3) ∧
    assembleOps "DIV" [.reg rd, .reg rs1, .reg rs2] = some (.div rd rs1 rs2) ∧
    assembleOps "MOD" [.reg rd, .reg rs1, .reg rs2] = some (.mod rd rs1 rs2) ∧
    assembleOps "DIVMOD" [.reg rd, .reg rr, .reg rs1, .reg rs2] = some (.divmod rd rr rs1 rs2) ∧
    assembleOps "SHLV" [.reg rd, .reg rs1, .reg rs2] = some (.shlv rd rs1 rs2) ∧
    assembleOps "SHRV" [.reg rd, .reg rs1, .reg rs2] = some (.shrv rd rs1 rs2) ∧
    assembleOps "BITLEN" [.reg rd, .reg rs1] = some (.bitlen rd rs1) ∧
    assembleOps "CMP" [.reg rs1, .reg rs2] = some (.cmp rs1 rs2) ∧
    assembleOps "EXPMOD" [.reg rd, .reg rs1, .reg rs2, .reg rs3] = some (.expmod rd rs1 rs2 rs3) ∧
    assembleOps "EGCD" [.reg rd, .reg rr, .reg rs3, .reg rs1, .reg rs2] = some (.egcd rd rr rs3 rs1 rs2) ∧
    assembleOps "MODINV" [.reg rd, .reg rs1, .reg rs2] = some (.modinv rd rs1 rs2) ∧
    assembleOps "MRW" [.reg rs1, .reg rs2] = some (.mrw rs1 rs2)) ∧
  (∀ (rd rs1 : Reg) (v : Int) (i : BitVec 16), asmSimm v = some i →
    assembleOps "SHL" [.reg rd, .reg rs1, .num v] = some (.shl rd rs1 i) ∧
    assembleOps "SHR" [.reg rd, .reg rs1, .num v] = some (.shr rd rs1 i)) ∧
  (∀ (rd rs1 : Reg) (v : Int) (u : BitVec 16), asmUimm v = some u →
    assembleOps "LDI" [.reg rd, .num v] = some (.ldi rd u) ∧
    assembleOps "MULI" [.reg rd, .reg rs1, .num v] = some (.muli rd rs1 u) ∧
    assembleOps "TESTBIT" [.reg rs1, .num v] = some (.testbit rs1 u) ∧
    assembleOps "SETBIT" [.reg rd, .reg rs1, .num v] = some (.setbit rd rs1 u) ∧
    assembleOps "MRTEST" [.reg rs1, .num v] = some (.mrtest rs1 u)) ∧
  (∀ rd rs1 rs3 : Reg,
    assembleOps "SHR1" [.reg rd, .reg rs1] = some (.shr rd rs1 1#16) ∧
    assembleOps "SQRMOD" [.reg rd, .reg rs1, .reg rs3] = some (.mulmod rd rs1 rs1 rs3) ∧
    assembleOps "MRTEST" [.reg rs1] = some (.mrtest rs1 20#16) ∧ assembleOps "ZERO" [.reg rd] = some (.clr rd)) ∧
  (∀ (m : String) (rd rs1 : Reg) (v : Int), m = "SHL" ∨ m = "SHR" → v < -32768 ∨ 32767 < v →
    assembleOps m [.reg rd, .reg rs1, .num v] = none) ∧
  (∀ (m : String) (rd rs1 : Reg) (v : Int), v < 0 ∨ 65535 < v →
    (m = "LDI" ∨ m = "TESTBIT" ∨ m = "MRTEST" → assembleOps m [.reg rd, .num v] = none) ∧
    (m = "MULI" ∨ m = "SETBIT" → assembleOps m [.reg rd, .reg rs1, .num v] = none))

/-! ### The step -/

/-- A step is the turn of one agent: when it is the engine's and PEND decodes to a command, the step is `exec` of that command;
when it is the host's, the step is the host's access.  A command placed by `withFetchWord` is run by the very next step.
That turns come from a schedule is the model's choice (log 4, log 5). -/
def Obligations.StepRunsTheDecodedCommand : Prop :=
  (∀ (s : State) (i : Instr), s.status.busy = true → decodeWord s.pend = .ok i →
    (s.schedule = [] → step s = exec i s) ∧
    (∀ rest, s.schedule = .engine :: rest → step s = exec i { s with schedule := rest })) ∧
  (∀ (s : State) (a : HostAccess) (rest : List Turn), s.schedule = .host a :: rest →
    step s = .next (State.access { s with schedule := rest } a)) ∧
  (∀ (s : State) (w : Nat) (i : Instr), w < 2 ^ 32 → decodeTableWord 32 w = some i →
    step (s.withFetchWord 32 w) =
      exec i { s with pend := BitVec.ofNat 32 w, status := { s.status with busy := true } })

/-- An idle engine takes no step: its turn leaves every state as it is (R318).
The schedule is the model's (log 4). -/
def Obligations.IdleEngineKeepsState : Prop :=
  ∀ s : State, s.status.busy = false →
    (s.schedule = [] → step s = .next s) ∧
    (∀ rest, s.schedule = .engine :: rest → step s = .next { s with schedule := rest })

/-- No step ever stops the machine.  That is the model's reading (log 11), from the spec's sentences that a fault ends one command and
the engine goes on (R303, R311), that every command ends (R301) and that no access raises a bus error (R62); that an idle turn
answers a state too, its own (R318), is the model's choice (log 4). -/
def Obligations.StepAlwaysAnswersNext : Prop :=
  ∀ s : State, ∃ t, step s = .next t

/-- An accepted command always completes (or a soft reset cancels it): from a busy engine, a state with BUSY = 0 is reached within
one turn more than the schedule still holds (R301).
That an empty schedule is the engine's turn is the model's form of the spec's fairness (log 4). -/
def Obligations.PendingCommandEnds : Prop :=
  ∀ s : State, s.status.busy = true →
    ∃ k t, k ≤ s.schedule.length + 1 ∧ Sys2Proof.core.run k s = .next t ∧ t.status.busy = false

/-- Every completion either leaves exactly the marks of a fault (R303: no register and no flag written, ERRCMD, ERR, ERRCODE,
DONE, BUSY, one of the five codes of R300) or is a completion without a fault (R301). -/
def Obligations.CompletionFinishesOrFaultsPrecisely : Prop :=
  ∀ (i : Instr) (s : State), ∃ t, exec i s = .next t ∧
    ((∃ c : BitVec 8, 1 ≤ c.toNat ∧ c.toNat ≤ 5 ∧ t = s.faulted c) ∨
      (t.status = { s.status with busy := false, done := true } ∧ t.errCmd = s.errCmd))

/-- What no completion changes, for every command: the registers that are no destination of it, CTRL, OVR, CMDCNT, PEND, WSEL,
WIDX, the parameters, the turns to come and the host's last answer; and only MRTEST takes draws. -/
def Obligations.CompletionFrame : Prop :=
  ∀ (i : Instr) (s t : State), exec i s = .next t →
    (∀ q, q ∉ i.destinations → t.reg q = s.reg q) ∧
    t = { s with
      regs := t.regs, flags := t.flags, status := { t.status with ovr := s.status.ovr }, errCmd := t.errCmd
      draws := t.draws, drawsTaken := t.drawsTaken } ∧
    ((∀ rs1 imm, i ≠ .mrtest rs1 imm) → t.draws = s.draws ∧ t.drawsTaken = s.drawsTaken)

/-- Which command raises which fault (the table of R300): from a state with ERR = 0, the code of a completion with ERR = 1 is one
the table gives the command; the eight commands it does not list never fault once decoded. -/
def Obligations.FaultCodesByCommand : Prop :=
  ∀ (i : Instr) (s t : State), s.status.err = false → exec i s = .next t → t.status.err = true →
    match i with
    | .sub _ _ _ | .mrw _ _ | .mrtest _ _ => t.status.errCode = 0x02#8
    | .div _ _ _ | .mod _ _ _ | .divmod _ _ _ _ | .mulmod _ _ _ _ | .expmod _ _ _ _ | .modinv _ _ _ =>
      t.status.errCode = 0x03#8
    | .add _ _ _ | .mul _ _ _ | .muli _ _ _ | .shl _ _ _ | .shr _ _ _ | .shlv _ _ _ | .setbit _ _ _ =>
      t.status.errCode = 0x04#8
    | .egcd _ _ _ _ _ => t.status.errCode = 0x04#8 ∨ t.status.errCode = 0x05#8
    | _ => False

/-! ### The invariant -/

/-- Every step, of either agent, keeps the invariant: legal parameters, every register below CAP, ERRCODE 0 exactly while ERR = 0
and otherwise a code of R300, DONE = ERR = 0 while busy, at most one of LT, EQ, GT. -/
def Obligations.StepKeepsInvariant : Prop :=
  ∀ s t : State, s.Inv → step s = .next t → t.Inv

/-- The invariant holds after reset, for every legal value of the parameters. -/
def Obligations.ResetMeetsInvariant : Prop :=
  State.reset.Inv ∧ ∀ p : Params, p.legal → (State.resetWith p).Inv

/-- Power-on reset (R340, R51): every register, flag and control field 0, IRQ 0, ID and PARAM reading their constants, the engine
idle and accepting a command at the first CMD write; for every value of the parameters. -/
def Obligations.ResetLeavesZero : Prop :=
  ∀ p : Params,
    (∀ q, (State.resetWith p).reg q = 0) ∧ (State.resetWith p).ctrl = ⟨false, false⟩ ∧
    (State.resetWith p).status = ⟨false, false, false, false, 0#8⟩ ∧
    (State.resetWith p).flags = ⟨false, false, false, false, false⟩ ∧ (State.resetWith p).errCmd = 0#32 ∧
    (State.resetWith p).cmdCnt = 0#32 ∧ (State.resetWith p).wsel = 0 ∧ (State.resetWith p).widx = 0#16 ∧
    (State.resetWith p).pend = 0#32 ∧ (State.resetWith p).irq = false ∧ (State.resetWith p).params = p ∧
    ((State.resetWith p).hostRead 0x000).answer = some 0x48454C58#64 ∧
    ((State.resetWith p).hostRead 0x004).answer =
      some ((0#12 ++ 0xF#4 ++ BitVec.ofNat 16 p.maxSeg : Word).setWidth 64) ∧
    ∀ w, ((State.resetWith p).hostWrite 0x014 w).status.busy = true ∧ ((State.resetWith p).hostWrite 0x014 w).pend = w

/-- Registers change only through a completion that names them as destinations, an accepted WDATA write to the register WSEL
shows, or a soft reset (R23, R25, R341). -/
def Obligations.RegisterWriters : Prop :=
  ∀ (s t : State) (q : Reg), step s = .next t → t.reg q ≠ s.reg q →
    ((∀ a rest, s.schedule ≠ .host a :: rest) ∧ s.status.busy = true ∧
      ∃ i, decodeWord s.pend = .ok i ∧ q ∈ i.destinations) ∨
    (∃ d rest, s.schedule = .host (.write (s.params.mmioBase + 0x028) .w32 d) :: rest ∧ s.status.busy = false ∧
      s.widx.toNat < s.params.maxSeg ∧ q = s.wsel) ∨
    (∃ d rest, s.schedule = .host (.write (s.params.mmioBase + 0x008) .w32 d) :: rest ∧ d.getLsbD 0 = true ∧ t.reg q = 0)

/-! ### Construction, adder, subtractor -/

/-- NOP, CLR, LDI and MOV (R140 to R143): their words, and their completion from every state. -/
def Obligations.ConstructionResults : Prop :=
  ∀ (rd rs1 : Reg) (imm : BitVec 16) (s : State),
    (decodeWord 0x00000000#32 = .ok .nop ∧
      ∃ t, exec .nop s = .next t ∧ s.Completed t s.reg s.flags) ∧
    (decodeWord (0x01#8 ++ regBits rd ++ 0#20) = .ok (.clr rd) ∧
      ∃ t, exec (.clr rd) s = .next t ∧ s.Completed t (s.withReg rd 0) { s.flags with z := true }) ∧
    (decodeWord (0x02#8 ++ regBits rd ++ 0#4 ++ imm) = .ok (.ldi rd imm) ∧
      ∃ t, exec (.ldi rd imm) s = .next t ∧ s.Completed t (s.withReg rd imm.toNat) (s.withZ imm.toNat)) ∧
    (decodeWord (0x03#8 ++ regBits rd ++ regBits rs1 ++ 0#16) = .ok (.mov rd rs1) ∧
      ∃ t, exec (.mov rd rs1) s = .next t ∧ s.Completed t (s.withReg rd (s.reg rs1)) (s.withZ (s.reg rs1)))

/-- ADD (R160): the exact sum, or CAPACITY when it needs more than MAXSEG segments. -/
def Obligations.AddResult : Prop :=
  ∀ (rd rs1 rs2 : Reg) (s : State),
    decodeWord (0x10#8 ++ regBits rd ++ regBits rs1 ++ regBits rs2 ++ 0#12) = .ok (.add rd rs1 rs2) ∧
    (s.reg rs1 + s.reg rs2 < 65536 ^ s.params.maxSeg →
      ∃ t, exec (.add rd rs1 rs2) s = .next t ∧
        s.Completed t (s.withReg rd (s.reg rs1 + s.reg rs2)) (s.withZ (s.reg rs1 + s.reg rs2))) ∧
    (65536 ^ s.params.maxSeg ≤ s.reg rs1 + s.reg rs2 → exec (.add rd rs1 rs2) s = .next (s.faulted 0x04#8))

/-- SUB (R161): the exact difference, or UNDERFLOW when the minuend is smaller. -/
def Obligations.SubResult : Prop :=
  ∀ (rd rs1 rs2 : Reg) (s : State),
    decodeWord (0x11#8 ++ regBits rd ++ regBits rs1 ++ regBits rs2 ++ 0#12) = .ok (.sub rd rs1 rs2) ∧
    (s.reg rs2 ≤ s.reg rs1 →
      ∃ t, exec (.sub rd rs1 rs2) s = .next t ∧
        s.Completed t (s.withReg rd (s.reg rs1 - s.reg rs2)) (s.withZ (s.reg rs1 - s.reg rs2))) ∧
    (s.reg rs1 < s.reg rs2 → exec (.sub rd rs1 rs2) s = .next (s.faulted 0x02#8))

/-- The segment chains of the adder and the subtractor are the value-level results, with carries and borrows of 0 or 1
(R160, R161): no carry is lost between segments, and a borrow leaves the top exactly when `a < b`. -/
def Obligations.CarryAndBorrowChainsExact : Prop :=
  ∀ a b : Nat, addChain a b = a + b ∧ subChain a b = (if a < b then none else some (a - b)) ∧
    ∀ n, (addLoop a b n).2 ≤ 1 ∧ (subLoop a b n).2 ≤ 1 ∧
      (addLoop a b n).1 + (addLoop a b n).2 * 65536 ^ n = a % 65536 ^ n + b % 65536 ^ n

/-- The laws of the adder and subtractor (R162): ADD then SUB gives the first operand back, ADD commutes, and SUB succeeds exactly
when the minuend is not the smaller. -/
def Obligations.AddSubLaws : Prop :=
  ∀ (rd rs1 rs2 : Reg) (s : State), s.status.err = false →
    (exec (.add rd rs1 rs2) s = exec (.add rd rs2 rs1) s) ∧
    (rd ≠ rs2 → s.reg rs1 + s.reg rs2 < 65536 ^ s.params.maxSeg →
      ∃ t u, exec (.add rd rs1 rs2) s = .next t ∧ exec (.sub rd rd rs2) t = .next u ∧ u.reg rd = s.reg rs1) ∧
    (∀ t, exec (.sub rd rs1 rs2) s = .next t → (t.status.err = false ↔ s.reg rs2 ≤ s.reg rs1))

/-! ### Multiplier and long division -/

/-- MUL (R180): the exact product, or CAPACITY. -/
def Obligations.MulResult : Prop :=
  ∀ (rd rs1 rs2 : Reg) (s : State),
    decodeWord (0x20#8 ++ regBits rd ++ regBits rs1 ++ regBits rs2 ++ 0#12) = .ok (.mul rd rs1 rs2) ∧
    (s.reg rs1 * s.reg rs2 < 65536 ^ s.params.maxSeg →
      ∃ t, exec (.mul rd rs1 rs2) s = .next t ∧
        s.Completed t (s.withReg rd (s.reg rs1 * s.reg rs2)) (s.withZ (s.reg rs1 * s.reg rs2))) ∧
    (65536 ^ s.params.maxSeg ≤ s.reg rs1 * s.reg rs2 → exec (.mul rd rs1 rs2) s = .next (s.faulted 0x04#8))

/-- MULI (R181): the exact product with the unsigned immediate, or CAPACITY. -/
def Obligations.MuliResult : Prop :=
  ∀ (rd rs1 : Reg) (imm : BitVec 16) (s : State),
    decodeWord (0x21#8 ++ regBits rd ++ regBits rs1 ++ imm) = .ok (.muli rd rs1 imm) ∧
    (s.reg rs1 * imm.toNat < 65536 ^ s.params.maxSeg →
      ∃ t, exec (.muli rd rs1 imm) s = .next t ∧
        s.Completed t (s.withReg rd (s.reg rs1 * imm.toNat)) (s.withZ (s.reg rs1 * imm.toNat))) ∧
    (65536 ^ s.params.maxSeg ≤ s.reg rs1 * imm.toNat → exec (.muli rd rs1 imm) s = .next (s.faulted 0x04#8))

/-- MULMOD (R182): the product modulo n for operands of any size, or DIVZERO. -/
def Obligations.MulmodResult : Prop :=
  ∀ (rd rs1 rs2 rs3 : Reg) (s : State),
    decodeWord (0x22#8 ++ regBits rd ++ regBits rs1 ++ regBits rs2 ++ regBits rs3 ++ 0#8) = .ok (.mulmod rd rs1 rs2 rs3) ∧
    (s.reg rs3 ≠ 0 →
      ∃ t, exec (.mulmod rd rs1 rs2 rs3) s = .next t ∧
        s.Completed t (s.withReg rd (s.reg rs1 * s.reg rs2 % s.reg rs3)) (s.withZ (s.reg rs1 * s.reg rs2 % s.reg rs3))) ∧
    (s.reg rs3 = 0 → exec (.mulmod rd rs1 rs2 rs3) s = .next (s.faulted 0x03#8))

/-- The binary long-division loop computes floor division, `a = q*b + r` with `r < b` (R183), and with the multipliers it obeys the
laws of R187: dividing a product gives the factor back, and MULMOD's loop is the product's remainder. -/
def Obligations.LongDivisionIsFloorDivision : Prop :=
  ∀ a b : Nat, b ≠ 0 →
    (longDivide a b).1 * b + (longDivide a b).2 = a ∧ (longDivide a b).2 < b ∧
      (longDivide a b).1 = a / b ∧ (longDivide a b).2 = a % b ∧ (longDivide (mulSchool a b) b).1 = a ∧
      ∀ c, mulMod c a b = (longDivide (mulSchool c a) b).2

/-- DIV, MOD and DIVMOD (R184 to R186): quotient and remainder, Z from the value written to rd, or DIVZERO with nothing written.
DIVMOD with equal destinations is no command (`IllegalWordsFault`). -/
def Obligations.DivisionResults : Prop :=
  ∀ (rd rr rs1 rs2 : Reg) (s : State),
    decodeWord (0x28#8 ++ regBits rd ++ regBits rs1 ++ regBits rs2 ++ 0#12) = .ok (.div rd rs1 rs2) ∧
    decodeWord (0x29#8 ++ regBits rd ++ regBits rs1 ++ regBits rs2 ++ 0#12) = .ok (.mod rd rs1 rs2) ∧
    (rd ≠ rr → decodeWord (0x2A#8 ++ regBits rd ++ regBits rs1 ++ regBits rs2 ++ regBits rr ++ 0#8) =
      .ok (.divmod rd rr rs1 rs2)) ∧
    (rd = rr → decodeWord (0x2A#8 ++ regBits rd ++ regBits rs1 ++ regBits rs2 ++ regBits rr ++ 0#8) =
      .error .equalDestinations) ∧
    (s.reg rs2 ≠ 0 →
      (∃ t, exec (.div rd rs1 rs2) s = .next t ∧
        s.Completed t (s.withReg rd (s.reg rs1 / s.reg rs2)) (s.withZ (s.reg rs1 / s.reg rs2))) ∧
      (∃ t, exec (.mod rd rs1 rs2) s = .next t ∧
        s.Completed t (s.withReg rd (s.reg rs1 % s.reg rs2)) (s.withZ (s.reg rs1 % s.reg rs2))) ∧
      (rd ≠ rr → ∃ t, exec (.divmod rd rr rs1 rs2) s = .next t ∧
        s.Completed t
          (fun q => if q = rd then s.reg rs1 / s.reg rs2 else if q = rr then s.reg rs1 % s.reg rs2 else s.reg q)
          (s.withZ (s.reg rs1 / s.reg rs2)))) ∧
    (s.reg rs2 = 0 →
      exec (.div rd rs1 rs2) s = .next (s.faulted 0x03#8) ∧ exec (.mod rd rs1 rs2) s = .next (s.faulted 0x03#8) ∧
      exec (.divmod rd rr rs1 rs2) s = .next (s.faulted 0x03#8))

/-! ### Shifter -/

/-- The segment shifter computes `a * 2^k` and `a div 2^k`, the left shift gives nothing exactly when a nonzero value would
need more than the register's bits (R210), and shifting back obeys the laws of R215. -/
def Obligations.SegmentShifterExact : Prop :=
  ∀ capBits a k : Nat,
    (a = 0 → shiftLeft capBits a k = some 0) ∧
    (a ≠ 0 → capBits < bitlen a + k → shiftLeft capBits a k = none) ∧
    (a ≠ 0 → bitlen a + k ≤ capBits → shiftLeft capBits a k = some (a * 2 ^ k)) ∧
    shiftRight a k = a / 2 ^ k ∧
    (∀ v, shiftLeft capBits a k = some v → shiftRight v k = a) ∧
    (∀ v, shiftLeft capBits (shiftRight a k) k = some v → v = a - a % 2 ^ k)

/-- SHL (R211), in states whose registers are below CAP: a nonnegative count multiplies by a power of two or faults CAPACITY; a
negative one divides. -/
def Obligations.ShlResult : Prop :=
  ∀ (rd rs1 : Reg) (imm : BitVec 16) (s : State), s.RegsBounded →
    decodeWord (0x30#8 ++ regBits rd ++ regBits rs1 ++ imm) = .ok (.shl rd rs1 imm) ∧
    (if 0 < imm.toInt ∧ s.reg rs1 ≠ 0 ∧ 16 * s.params.maxSeg < bitlen (s.reg rs1) + imm.toInt.toNat then
      exec (.shl rd rs1 imm) s = .next (s.faulted 0x04#8)
    else if 0 ≤ imm.toInt then
      ∃ t, exec (.shl rd rs1 imm) s = .next t ∧
        s.Completed t (s.withReg rd (s.reg rs1 * 2 ^ imm.toInt.toNat)) (s.withZ (s.reg rs1 * 2 ^ imm.toInt.toNat))
    else
      ∃ t, exec (.shl rd rs1 imm) s = .next t ∧
        s.Completed t (s.withReg rd (s.reg rs1 / 2 ^ (-imm.toInt).toNat)) (s.withZ (s.reg rs1 / 2 ^ (-imm.toInt).toNat)))

/-- SHR (R212): a nonnegative count divides by a power of two; a negative one multiplies or faults CAPACITY. -/
def Obligations.ShrResult : Prop :=
  ∀ (rd rs1 : Reg) (imm : BitVec 16) (s : State),
    decodeWord (0x31#8 ++ regBits rd ++ regBits rs1 ++ imm) = .ok (.shr rd rs1 imm) ∧
    (if imm.toInt < 0 ∧ s.reg rs1 ≠ 0 ∧ 16 * s.params.maxSeg < bitlen (s.reg rs1) + (-imm.toInt).toNat then
      exec (.shr rd rs1 imm) s = .next (s.faulted 0x04#8)
    else if 0 ≤ imm.toInt then
      ∃ t, exec (.shr rd rs1 imm) s = .next t ∧
        s.Completed t (s.withReg rd (s.reg rs1 / 2 ^ imm.toInt.toNat)) (s.withZ (s.reg rs1 / 2 ^ imm.toInt.toNat))
    else
      ∃ t, exec (.shr rd rs1 imm) s = .next t ∧
        s.Completed t (s.withReg rd (s.reg rs1 * 2 ^ (-imm.toInt).toNat)) (s.withZ (s.reg rs1 * 2 ^ (-imm.toInt).toNat)))

/-- SHLV and SHRV (R213, R214): a register's value, of any size, is the count. -/
def Obligations.RegisterShiftResults : Prop :=
  ∀ (rd rs1 rs2 : Reg) (s : State),
    decodeWord (0x32#8 ++ regBits rd ++ regBits rs1 ++ regBits rs2 ++ 0#12) = .ok (.shlv rd rs1 rs2) ∧
    decodeWord (0x33#8 ++ regBits rd ++ regBits rs1 ++ regBits rs2 ++ 0#12) = .ok (.shrv rd rs1 rs2) ∧
    (if s.reg rs1 ≠ 0 ∧ 16 * s.params.maxSeg < bitlen (s.reg rs1) + s.reg rs2 then
      exec (.shlv rd rs1 rs2) s = .next (s.faulted 0x04#8)
    else
      ∃ t, exec (.shlv rd rs1 rs2) s = .next t ∧
        s.Completed t (s.withReg rd (s.reg rs1 * 2 ^ s.reg rs2)) (s.withZ (s.reg rs1 * 2 ^ s.reg rs2))) ∧
    (∃ t, exec (.shrv rd rs1 rs2) s = .next t ∧
      s.Completed t (s.withReg rd (s.reg rs1 / 2 ^ s.reg rs2)) (s.withZ (s.reg rs1 / 2 ^ s.reg rs2)))

/-! ### Bit access and comparison -/

/-- TESTBIT (R230): B is the bit, 0 past the top, for every index. -/
def Obligations.TestbitResult : Prop :=
  ∀ (rs1 : Reg) (imm : BitVec 16) (s : State),
    decodeWord (0x40#8 ++ 0#4 ++ regBits rs1 ++ imm) = .ok (.testbit rs1 imm) ∧
    ∃ t, exec (.testbit rs1 imm) s = .next t ∧
      s.Completed t s.reg { s.flags with b := decide (s.reg rs1 / 2 ^ imm.toNat % 2 = 1) }

/-- SETBIT (R231): the value with bit i set, Z 0, or CAPACITY when the register cannot hold the bit. -/
def Obligations.SetbitResult : Prop :=
  ∀ (rd rs1 : Reg) (imm : BitVec 16) (s : State),
    decodeWord (0x41#8 ++ regBits rd ++ regBits rs1 ++ imm) = .ok (.setbit rd rs1 imm) ∧
    (imm.toNat < 16 * s.params.maxSeg →
      ∃ t, exec (.setbit rd rs1 imm) s = .next t ∧
        s.Completed t (s.withReg rd (s.reg rs1 ||| 2 ^ imm.toNat)) { s.flags with z := false }) ∧
    (16 * s.params.maxSeg ≤ imm.toNat → exec (.setbit rd rs1 imm) s = .next (s.faulted 0x04#8))

/-- BITLEN (R232): rd takes the least n with `a < 2^n`. -/
def Obligations.BitlenResult : Prop :=
  ∀ (rd rs1 : Reg) (s : State),
    decodeWord (0x42#8 ++ regBits rd ++ regBits rs1 ++ 0#16) = .ok (.bitlen rd rs1) ∧
    ∃ t n, exec (.bitlen rd rs1) s = .next t ∧ s.Completed t (s.withReg rd n) { s.flags with z := decide (s.reg rs1 = 0) } ∧
      (∀ k, s.reg rs1 < 2 ^ k ↔ n ≤ k)

/-- CMP (R233, R234): LT, EQ and GT say the numeric order, exactly one is 1, and nothing else is written; the comparator's segment
order is the numeric order. -/
def Obligations.CmpResult : Prop :=
  (∀ a b : Nat, (compareSegs a b = .lt ↔ a < b) ∧ (compareSegs a b = .eq ↔ a = b) ∧ (compareSegs a b = .gt ↔ b < a)) ∧
  ∀ (rs1 rs2 : Reg) (s : State),
    decodeWord (0x48#8 ++ 0#4 ++ regBits rs1 ++ regBits rs2 ++ 0#12) = .ok (.cmp rs1 rs2) ∧
    ∃ t, exec (.cmp rs1 rs2) s = .next t ∧
      s.Completed t s.reg
        { s.flags with
          lt := decide (s.reg rs1 < s.reg rs2), eq := decide (s.reg rs1 = s.reg rs2), gt := decide (s.reg rs2 < s.reg rs1) }

/-! ### Number theory -/

/-- EXPMOD (R250, R251): `a^b mod c` with `0^0 = 1`, for every `c >= 1`, or DIVZERO. -/
def Obligations.ExpmodResult : Prop :=
  ∀ (rd rs1 rs2 rs3 : Reg) (s : State),
    decodeWord (0x50#8 ++ regBits rd ++ regBits rs1 ++ regBits rs2 ++ regBits rs3 ++ 0#8) = .ok (.expmod rd rs1 rs2 rs3) ∧
    (s.reg rs3 ≠ 0 →
      ∃ t, exec (.expmod rd rs1 rs2 rs3) s = .next t ∧
        s.Completed t (s.withReg rd (s.reg rs1 ^ s.reg rs2 % s.reg rs3)) (s.withZ (s.reg rs1 ^ s.reg rs2 % s.reg rs3))) ∧
    (s.reg rs3 = 0 → exec (.expmod rd rs1 rs2 rs3) s = .next (s.faulted 0x03#8))

/-- The Extended-Euclid engine is the recurrence of R255 at every pair it is called on, with the least correction that keeps both
coefficients non-negative; its result is the gcd `d` with `d = a*x - b*y`, except for `a = 0 < b`. -/
def Obligations.EuclidRecurrence : Prop :=
  (∀ a : Nat, extendedEuclid a 0 = (a, 1, 0)) ∧
  (∀ a b d x1 y1 : Nat, 0 < a → 0 < b → extendedEuclid b (a % b) = (d, x1, y1) →
    ∃ m : Nat, y1 ≤ m * b ∧ x1 + a / b * y1 ≤ m * a ∧
      (∀ m' : Nat, y1 ≤ m' * b → x1 + a / b * y1 ≤ m' * a → m ≤ m') ∧
      extendedEuclid a b = (d, m * b - y1, m * a - x1 - a / b * y1)) ∧
  (∀ a b d x y : Nat, 0 < a ∨ b = 0 → extendedEuclid a b = (d, x, y) → d = Nat.gcd a b ∧ a * x = d + b * y)

/-- EGCD (R256): gcd and the two coefficients of the engine, Z from the gcd; DOMAIN before CAPACITY.  Equal destinations are no
command. -/
def Obligations.EgcdResult : Prop :=
  ∀ (rd rx ry rs1 rs2 : Reg) (s : State),
    (rd ≠ rx ∧ rd ≠ ry ∧ rx ≠ ry →
      decodeWord (0x51#8 ++ regBits rd ++ regBits rs1 ++ regBits rs2 ++ regBits rx ++ regBits ry ++ 0#4) =
        .ok (.egcd rd rx ry rs1 rs2)) ∧
    (rd = rx ∨ rd = ry ∨ rx = ry →
      decodeWord (0x51#8 ++ regBits rd ++ regBits rs1 ++ regBits rs2 ++ regBits rx ++ regBits ry ++ 0#4) =
        .error .equalDestinations) ∧
    (if s.reg rs1 = 0 ∧ s.reg rs2 ≠ 0 then exec (.egcd rd rx ry rs1 rs2) s = .next (s.faulted 0x05#8)
    else
      ∃ d x y, extendedEuclid (s.reg rs1) (s.reg rs2) = (d, x, y) ∧
        if 65536 ^ s.params.maxSeg ≤ x ∨ 65536 ^ s.params.maxSeg ≤ y then
          exec (.egcd rd rx ry rs1 rs2) s = .next (s.faulted 0x04#8)
        else rd ≠ rx ∧ rd ≠ ry ∧ rx ≠ ry →
          ∃ t, exec (.egcd rd rx ry rs1 rs2) s = .next t ∧
            s.Completed t (fun q => if q = rd then d else if q = rx then x else if q = ry then y else s.reg q) (s.withZ d))

/-- The properties of EGCD (R257): when it does not fault, rd is the gcd and `d = a*X - b*Y`. -/
def Obligations.EgcdBezout : Prop :=
  ∀ (rd rx ry rs1 rs2 : Reg) (s t : State), rd ≠ rx → rd ≠ ry → rx ≠ ry → s.status.err = false →
    exec (.egcd rd rx ry rs1 rs2) s = .next t → t.status.err = false →
    t.reg rd = Nat.gcd (s.reg rs1) (s.reg rs2) ∧
      s.reg rs1 * t.reg rx = t.reg rd + s.reg rs2 * t.reg ry

/-- EGCD never faults CAPACITY from a state whose registers are below CAP: the coefficients stay within the operands.  The spec
observed the bounds and did not prove them (R257). -/
def Obligations.EgcdNeverFaultsCapacity : Prop :=
  ∀ (rd rx ry rs1 rs2 : Reg) (s : State), s.params.legal → s.RegsBounded → rd ≠ rx → rd ≠ ry → rx ≠ ry →
    (0 < s.reg rs1 ∨ s.reg rs2 = 0) →
    ∃ t, exec (.egcd rd rx ry rs1 rs2) s = .next t ∧ t.status = { s.status with busy := false, done := true } ∧
      (0 < s.reg rs2 → t.reg rx ≤ s.reg rs2 ∧ t.reg ry ≤ s.reg rs1)

/-- MODINV (R260): an inverse in `[0, n)` is written exactly when `gcd(a, n) = 1`, else only B; DIVZERO when n = 0.  Z is written
only on success. -/
def Obligations.ModinvResult : Prop :=
  ∀ (rd rs1 rs2 : Reg) (s : State),
    decodeWord (0x52#8 ++ regBits rd ++ regBits rs1 ++ regBits rs2 ++ 0#12) = .ok (.modinv rd rs1 rs2) ∧
    (s.reg rs2 ≠ 0 → Nat.gcd (s.reg rs1) (s.reg rs2) = 1 →
      ∃ t r, exec (.modinv rd rs1 rs2) s = .next t ∧ r < s.reg rs2 ∧ s.reg rs1 * r % s.reg rs2 = 1 % s.reg rs2 ∧
        s.Completed t (s.withReg rd r) { s.flags with z := decide (r = 0), b := false }) ∧
    (s.reg rs2 ≠ 0 → Nat.gcd (s.reg rs1) (s.reg rs2) ≠ 1 →
      ∃ t, exec (.modinv rd rs1 rs2) s = .next t ∧ s.Completed t s.reg { s.flags with b := true }) ∧
    (s.reg rs2 = 0 → exec (.modinv rd rs1 rs2) s = .next (s.faulted 0x03#8))

/-- The witness loop of R265 in powers of the base: for `n >= 2` it says composite exactly when some square on the way to
`a^(n-1)` is a square root of 1 modulo n other than 1 and n - 1, or `a^(n-1) mod n` is not 1. -/
def Obligations.WitnessInPowers : Prop :=
  ∀ a n : Nat, 2 ≤ n →
    (witness a n = true ↔
      (∃ i, i < bitlen (n - 1) ∧ a ^ ((n - 1) / 2 ^ (i + 1)) % n ≠ 1 ∧ a ^ ((n - 1) / 2 ^ (i + 1)) % n ≠ n - 1 ∧
        (a ^ ((n - 1) / 2 ^ (i + 1))) ^ 2 % n = 1) ∨
      a ^ (n - 1) % n ≠ 1)

/-- MRW (R265, R266): B is the witness's verdict, or UNDERFLOW when n = 0; and the verdicts R266 lists. -/
def Obligations.MrwResult : Prop :=
  ∀ (rs1 rs2 : Reg) (s : State),
    decodeWord (0x58#8 ++ 0#4 ++ regBits rs1 ++ regBits rs2 ++ 0#12) = .ok (.mrw rs1 rs2) ∧
    (s.reg rs2 ≠ 0 →
      ∃ t, exec (.mrw rs1 rs2) s = .next t ∧
        s.Completed t s.reg { s.flags with b := witness (s.reg rs1) (s.reg rs2) } ∧
        (s.reg rs2 = 1 → t.flags.b = false) ∧
        (s.reg rs2 = 2 → (t.flags.b = true ↔ s.reg rs1 % 2 = 0)) ∧
        (s.reg rs1 = 1 → t.flags.b = false) ∧
        (2 ≤ s.reg rs2 → s.reg rs1 % s.reg rs2 = 0 → t.flags.b = true) ∧
        (Nat.Prime (s.reg rs2) → 1 ≤ s.reg rs1 → s.reg rs1 ≤ s.reg rs2 - 1 → t.flags.b = false)) ∧
    (s.reg rs2 = 0 → exec (.mrw rs1 rs2) s = .next (s.faulted 0x02#8))

/-- MRTEST (R268, R269): at most R bases, each in `[1, max(1, n-1)]`; B is 1 exactly when one of them is a witness, which is then
the last; R bases when none is; UNDERFLOW when n = 0, with no draw.  That a base is the next supplied draw where that lies in the
range, and that draws are counted, is the model's form of the free input (log 3). -/
def Obligations.MrtestResult : Prop :=
  ∀ (rs1 : Reg) (imm : BitVec 16) (s : State),
    decodeWord (0x59#8 ++ 0#4 ++ regBits rs1 ++ imm) = .ok (.mrtest rs1 imm) ∧
    (s.reg rs1 ≠ 0 →
      ∃ (t : State) (bases : List Nat), exec (.mrtest rs1 imm) s = .next t ∧ bases.length ≤ imm.toNat ∧
        (∀ a ∈ bases, 1 ≤ a ∧ a ≤ max 1 (s.reg rs1 - 1)) ∧
        (∀ k v, k < bases.length → s.draws[k]? = some v → 1 ≤ v → v ≤ max 1 (s.reg rs1 - 1) → bases[k]? = some v) ∧
        (∀ a ∈ bases.dropLast, witness a (s.reg rs1) = false) ∧
        ((∀ a ∈ bases, witness a (s.reg rs1) = false) → bases.length = imm.toNat) ∧
        t = { s with
          flags := { s.flags with b := bases.any (fun a => witness a (s.reg rs1)) }
          status := { s.status with busy := false, done := true }
          draws := s.draws.drop bases.length
          drawsTaken := s.drawsTaken + bases.length }) ∧
    (s.reg rs1 = 0 → exec (.mrtest rs1 imm) s = .next (s.faulted 0x02#8))

/-- MRTEST never flags a prime, nor 1 or 2, whatever the draws and the round count (R269). -/
def Obligations.MrtestNeverFlagsAPrime : Prop :=
  ∀ (rs1 : Reg) (imm : BitVec 16) (s : State), (Nat.Prime (s.reg rs1) ∨ s.reg rs1 = 1) →
    ∃ t, exec (.mrtest rs1 imm) s = .next t ∧ t.flags.b = false ∧ t.status = { s.status with busy := false, done := true }

/-! ### The host window -/

/-- The words of CTRL, STATUS and FLAGS bit by bit (R33, R34, R35): reserved bits and SRST read 0. -/
def Obligations.RegisterWordLayouts : Prop :=
  (∀ c : Ctrl, c.word.getLsbD 0 = false ∧ c.word.getLsbD 1 = c.ie ∧ c.word.getLsbD 2 = c.ainc ∧
    ∀ k, 3 ≤ k → c.word.getLsbD k = false) ∧
  (∀ u : Status, u.word.getLsbD 0 = u.busy ∧ u.word.getLsbD 1 = u.done ∧ u.word.getLsbD 2 = u.err ∧
    u.word.getLsbD 3 = u.ovr ∧ (∀ k, 4 ≤ k → k < 8 → u.word.getLsbD k = false) ∧
    (∀ k, k < 8 → u.word.getLsbD (8 + k) = u.errCode.getLsbD k) ∧ ∀ k, 16 ≤ k → u.word.getLsbD k = false) ∧
  (∀ f : Flags, f.word.getLsbD 0 = f.z ∧ f.word.getLsbD 1 = f.lt ∧ f.word.getLsbD 2 = f.eq ∧ f.word.getLsbD 3 = f.gt ∧
    f.word.getLsbD 4 = f.b ∧ ∀ k, 5 ≤ k → f.word.getLsbD k = false)

/-- Reads without side effects (R31, R32, R35 to R40, R44, R66): each of these registers answers its contents and the read changes
nothing of the engine; CMD and the reserved words read 0. -/
def Obligations.PlainReads : Prop :=
  ∀ (s : State) (offset : Nat) (w : Word),
    ((offset, w) ∈ [(0x000, 0x48454C58#32), (0x004, 0#12 ++ 0xF#4 ++ BitVec.ofNat 16 s.params.maxSeg), (0x008, s.ctrl.word),
        (0x00C, s.status.word), (0x010, s.flags.word), (0x014, 0#32), (0x018, s.errCmd), (0x01C, s.cmdCnt),
        (0x020, BitVec.ofNat 32 s.wsel.val), (0x024, s.widx.setWidth 32)] ∨
      (0x034 ≤ offset ∧ offset ≤ 0xFFC ∧ offset % 4 = 0 ∧ w = 0#32)) →
    s.hostRead offset = { s with answer := some (w.setWidth 64) }

/-- Writes to the read-only registers ID, PARAM, FLAGS, ERRCMD, CMDCNT, WLEN, WBITS and to the reserved words are ignored
(R31, R32, R35, R37, R38, R42 to R44). -/
def Obligations.IgnoredWrites : Prop :=
  ∀ (s : State) (offset : Nat) (w : Word),
    (offset ∈ [0x000, 0x004, 0x010, 0x018, 0x01C, 0x02C, 0x030] ∨ (0x034 ≤ offset ∧ offset ≤ 0xFFC ∧ offset % 4 = 0)) →
    s.hostWrite offset w = { s with answer := none }

/-- A CMD write (R36): dropped with OVR while BUSY = 1 or ERR = 1 (R304), else accepted undecoded: PEND, BUSY, DONE and CMDCNT.
CMD reads 0. -/
def Obligations.CmdWrite : Prop :=
  ∀ (s : State) (w : Word),
    s.hostRead 0x014 = { s with answer := some 0#64 } ∧
    if s.status.busy = true ∨ s.status.err = true then
      s.hostWrite 0x014 w = { s with status := { s.status with ovr := true }, answer := none }
    else
      s.hostWrite 0x014 w =
        { s with
          pend := w, cmdCnt := s.cmdCnt + 1#32, status := { s.status with busy := true, done := false }, answer := none }

/-- A STATUS write (R34, R305): 1 in bits 1, 2, 3 clears DONE, ERR with ERRCODE, OVR; every other bit is ignored, and a 0 leaves
its bit; busy or not. -/
def Obligations.StatusWriteAcknowledges : Prop :=
  ∀ (s : State) (w : Word),
    s.hostWrite 0x00C w =
      { s with
        answer := none
        status :=
          { busy := s.status.busy
            done := if w.getLsbD 1 = true then false else s.status.done
            err := if w.getLsbD 2 = true then false else s.status.err
            ovr := if w.getLsbD 3 = true then false else s.status.ovr
            errCode := if w.getLsbD 2 = true then 0#8 else s.status.errCode } }

/-- A CTRL write (R33, R341, R342): with SRST = 1 the power-on state of the same machine, in every state, the pending command
gone; with SRST = 0 IE and AINC are stored and nothing else changes.  Nothing is said of the model's own inputs (turns, draws). -/
def Obligations.CtrlWrite : Prop :=
  ∀ (s : State) (w : Word),
    (w.getLsbD 0 = true →
      { s.hostWrite 0x008 w with schedule := [], draws := [], drawsTaken := 0 } = State.resetWith s.params) ∧
    (w.getLsbD 0 = false → s.hostWrite 0x008 w = { s with ctrl := ⟨w.getLsbD 1, w.getLsbD 2⟩, answer := none })

/-- WSEL and WIDX writes (R39, R40): the low 4 and the low 16 bits are stored, busy or not. -/
def Obligations.WselWidxWrites : Prop :=
  ∀ (s : State) (w : Word),
    (∃ t, s.hostWrite 0x020 w = t ∧ t.wsel.val = w.toNat % 16 ∧ t = { s with wsel := t.wsel, answer := none }) ∧
    (∃ t, s.hostWrite 0x024 w = t ∧ t.widx.toNat = w.toNat % 65536 ∧ t = { s with widx := t.widx, answer := none })

/-- WDATA (R41, with R40's auto-increment): reads and writes while busy, past the capacity, and in range. -/
def Obligations.WdataAccess : Prop :=
  ∀ (s : State) (w : Word),
    let i := s.widx.toNat
    let v := s.reg s.wsel
    let next := if s.ctrl.ainc = true then BitVec.ofNat 16 ((i + 1) % 65536) else s.widx
    (if s.status.busy = true then
      s.hostRead 0x028 = { s with status := { s.status with ovr := true }, answer := some 0#64 } ∧
      s.hostWrite 0x028 w = { s with status := { s.status with ovr := true }, answer := none }
    else if s.params.maxSeg ≤ i then
      s.hostRead 0x028 = { s with widx := next, answer := some 0#64 } ∧
      s.hostWrite 0x028 w = { s with widx := next, status := { s.status with ovr := true }, answer := none }
    else
      s.hostRead 0x028 = { s with widx := next, answer := some (BitVec.ofNat 64 (v / 65536 ^ i % 65536)) } ∧
      ∃ t, s.hostWrite 0x028 w = t ∧ t = { s with regs := t.regs, widx := next, answer := none } ∧
        ∀ q, t.reg q =
          if q = s.wsel then v - v / 65536 ^ i % 65536 * 65536 ^ i + w.toNat % 65536 * 65536 ^ i else s.reg q)

/-- WLEN and WBITS (R42, R43) in states that meet the invariant: reads give the canonical segment count and the bit length of the
shown register, the least numbers that bound it, or 0 with OVR while busy; writes are ignored. -/
def Obligations.WlenWbitsReads : Prop :=
  ∀ s : State, s.Inv →
    (∀ w, s.hostWrite 0x02C w = { s with answer := none } ∧ s.hostWrite 0x030 w = { s with answer := none }) ∧
    if s.status.busy = true then
      s.hostRead 0x02C = { s with status := { s.status with ovr := true }, answer := some 0#64 } ∧
      s.hostRead 0x030 = { s with status := { s.status with ovr := true }, answer := some 0#64 }
    else
      ∃ l b : Nat, s.hostRead 0x02C = { s with answer := some (BitVec.ofNat 64 l) } ∧
        s.hostRead 0x030 = { s with answer := some (BitVec.ofNat 64 b) } ∧ l < 2 ^ 32 ∧ b < 2 ^ 32 ∧
        (∀ k, s.reg s.wsel < 65536 ^ k ↔ l ≤ k) ∧ (∀ k, s.reg s.wsel < 2 ^ k ↔ b ≤ k)

/-- Construction from a segment array (R144): with AINC = 1, the register zero and the window at its segment 0, writing the
segments to WDATA in turn leaves their value in the register, and the other registers as they were. -/
def Obligations.SegmentArrayLoads : Prop :=
  ∀ (s : State) (segs : List (BitVec 16)), s.params.legal → s.status.busy = false → s.ctrl.ainc = true →
    s.widx = 0#16 → s.reg s.wsel = 0 → segs.length ≤ s.params.maxSeg →
    let t := segs.foldl (fun u x => u.hostWrite 0x028 (x.setWidth 32)) s
    t.reg s.wsel = segs.foldr (fun x v => x.toNat + 65536 * v) 0 ∧
      (∀ q, q ≠ s.wsel → t.reg q = s.reg q) ∧ t.status = s.status ∧
      t.widx.toNat = segs.length

/-- Any access in the window that is not 32 bits wide at a multiple of 4 is dropped (R62, R306): a write has no effect, a read
answers 0, and OVR is set. -/
def Obligations.OddAccessesDropped : Prop :=
  ∀ (s : State) (offset : Nat) (width : Width) (d : BitVec 64), offset ≤ 0xFFF → (width ≠ .w32 ∨ offset % 4 ≠ 0) →
    s.access (.read (s.params.mmioBase + offset) width) =
        { s with status := { s.status with ovr := true }, answer := some 0#64 } ∧
    s.access (.write (s.params.mmioBase + offset) width d) =
        { s with status := { s.status with ovr := true }, answer := none }

/-- An access outside the 4096 bytes at MMIO_BASE does not reach the engine (R61): nothing of it changes, and it answers nothing.
That it answers nothing is the model's choice (log 7). -/
def Obligations.OutsideAccessesIgnored : Prop :=
  ∀ (s : State) (addr : Nat) (width : Width) (d : BitVec 64),
    (addr < s.params.mmioBase ∨ s.params.mmioBase + 0xFFF < addr) →
    s.access (.read addr width) = { s with answer := none } ∧ s.access (.write addr width d) = { s with answer := none }

/-- Byte lanes (R63), for an aligned 32-bit access at any offset of the window: lane k of what a read answers is bits 8k to 8k + 7 of
what the register there reads as; and a write whose lane k is bits 8k to 8k + 7 of w, for k = 0 to 3, writes w to that register,
whatever the other lanes hold.
Data on the bus as one number is the model's form (log 18). -/
def Obligations.ByteLanesLittleEndian : Prop :=
  ∀ (s : State) (offset : Nat), offset ≤ 0xFFF → offset % 4 = 0 →
    (∃ v, (s.access (.read (s.params.mmioBase + offset) .w32)).answer = some v ∧
      ∀ k j, k < 4 → j < 8 → (lane v k).getLsbD j = (s.readReg (winRegAt offset)).1.getLsbD (8 * k + j)) ∧
    (∀ (d : BitVec 64) (w : Word), (∀ k j, k < 4 → j < 8 → (lane d k).getLsbD j = w.getLsbD (8 * k + j)) →
      s.access (.write (s.params.mmioBase + offset) .w32 d) = { s.writeReg (winRegAt offset) w with answer := none })

/-- The interrupt line (R45, R307): `IE and (DONE or ERR)`; it rises with every completion while IE = 1, an accepted command or
clearing DONE and ERR lowers it, and OVR never raises it. -/
def Obligations.InterruptLine : Prop :=
  ∀ s : State,
    (s.irq = true ↔ s.ctrl.ie = true ∧ (s.status.done = true ∨ s.status.err = true)) ∧
    (∀ i t, exec i s = .next t → t.irq = s.ctrl.ie) ∧
    (∀ w, s.status.busy = false → s.status.err = false → (s.hostWrite 0x014 w).irq = false) ∧
    (s.hostWrite 0x00C 0x00000006#32).irq = false ∧ s.drop.irq = s.irq
end

