-- ==== Sys2Proof/Laws/Numeric.lean ====
section
/-! SUPPORT. What the number and segment primitives are, in arithmetic. -/

namespace Sys2Proof.Machine

theorem seg_eq (v i : Nat) : seg v i = v / 65536 ^ i % 65536 := by
  unfold seg
  rw [show (0xFFFF : Nat) = 2 ^ 16 - 1 by norm_num, Nat.and_two_pow_sub_one_eq_mod, Nat.shiftRight_eq_div_pow, pow_mul]
  norm_num

theorem seg_lt (v i : Nat) : seg v i < 65536 := by
  rw [seg_eq]; exact Nat.mod_lt _ (by norm_num)

theorem bit_eq (v i : Nat) : bit v i = v / 2 ^ i % 2 := by
  unfold bit
  rw [Nat.and_one_is_mod, Nat.shiftRight_eq_div_pow]

theorem bit_eq_one_iff_testBit (v i : Nat) : bit v i = 1 ↔ v.testBit i = true := by
  rw [bit_eq, Nat.testBit_eq_decide_div_mod_eq, decide_eq_true_iff]

/-- `bitlen v` is the least `k` with `v < 2^k` (R14). -/
theorem bitlen_le_iff (v k : Nat) : bitlen v ≤ k ↔ v < 2 ^ k := by
  unfold bitlen
  split
  · next h => subst h; simp
  · next h => rw [Nat.succ_le_iff, Nat.log2_lt h]

theorem lt_two_pow_bitlen (v : Nat) : v < 2 ^ bitlen v := (bitlen_le_iff v _).mp le_rfl

theorem two_pow_le_of_lt_bitlen {v k : Nat} (h : k < bitlen v) : 2 ^ k ≤ v := by
  by_contra hc
  exact absurd ((bitlen_le_iff v k).mpr (by omega)) (by omega)

theorem bitlen_zero : bitlen 0 = 0 := rfl

theorem bitlen_pos {v : Nat} (h : v ≠ 0) : 0 < bitlen v := by
  unfold bitlen; simp [h]

/-- `len v` is the least `L` with `v < 65536^L` (R14). -/
theorem len_le_iff (v n : Nat) : len v ≤ n ↔ v < 65536 ^ n := by
  have e : (65536 : Nat) ^ n = 2 ^ (16 * n) := by rw [pow_mul]; norm_num
  rw [e, ← bitlen_le_iff]
  unfold len bitlen
  split <;> omega

theorem lt_pow_len (v : Nat) : v < 65536 ^ len v := (len_le_iff v _).mp le_rfl

theorem len_zero : len 0 = 0 := rfl

theorem len_pos {v : Nat} (h : v ≠ 0) : 0 < len v := by
  unfold len; simp [h]

/-- The segment count is the bit length in whole segments. -/
theorem len_eq_bitlen (v : Nat) : len v = (bitlen v + 15) / 16 := by
  unfold len bitlen; split <;> omega

/-- The segments of `v` below `n` make `v` modulo `65536^n` (R21). -/
theorem sumSegs_seg (v n : Nat) : sumSegs (seg v) n = v % 65536 ^ n := by
  induction n with
  | zero => simp [sumSegs, Nat.mod_one]
  | succ n ih =>
    rw [sumSegs, ih, seg_eq, pow_succ, Nat.mod_mul]
    ring

theorem sumSegs_seg_of_lt {v n : Nat} (h : v < 65536 ^ n) : sumSegs (seg v) n = v := by
  rw [sumSegs_seg, Nat.mod_eq_of_lt h]

theorem sumSegs_congr {f g : Nat → Nat} {n : Nat} (h : ∀ i, i < n → f i = g i) : sumSegs f n = sumSegs g n := by
  induction n with
  | zero => rfl
  | succ n ih => rw [sumSegs, sumSegs, ih (fun i hi => h i (by omega)), h n (by omega)]

theorem mod_pow_succ (v i : Nat) : v % 65536 ^ (i + 1) = v % 65536 ^ i + seg v i * 65536 ^ i := by
  rw [seg_eq, pow_succ, Nat.mod_mul]; ring

theorem seg_eq_zero_of_lt {v i : Nat} (h : v < 65536 ^ i) : seg v i = 0 := by
  rw [seg_eq, Nat.div_eq_of_lt h]

/-- Two numbers of at most `n` segments with equal segments are equal (R22). -/
theorem eq_of_seg_eq {v w n : Nat} (hv : v < 65536 ^ n) (hw : w < 65536 ^ n) (h : ∀ i, i < n → seg v i = seg w i) :
    v = w := by
  rw [← sumSegs_seg_of_lt hv, ← sumSegs_seg_of_lt hw, sumSegs_congr h]

theorem ceilDiv_le_iff {a b m : Nat} (hb : 0 < b) : ceilDiv a b ≤ m ↔ a ≤ m * b := by
  unfold ceilDiv
  rw [← Nat.lt_succ_iff, Nat.div_lt_iff_lt_mul hb, Nat.succ_mul]
  omega

/-- The leading zeros of a number below `2^n`, and its bit length, make `n` (R232). -/
theorem leadingZeros_add_bitlen {s : Nat} : ∀ {n : Nat}, s < 2 ^ n → leadingZeros s n + bitlen s = n
  | 0, h => by
    have : s = 0 := by simpa using h
    subst this; rfl
  | n + 1, h => by
    unfold leadingZeros
    by_cases hs : s < 2 ^ n
    · have hb : bit s n ≠ 1 := by rw [bit_eq, Nat.div_eq_of_lt hs]; decide
      rw [if_neg hb]
      have := leadingZeros_add_bitlen hs
      omega
    · have hd : s / 2 ^ n = 1 := by
        apply Nat.div_eq_of_lt_le <;> [omega; (rw [pow_succ] at h; omega)]
      have hb : bit s n = 1 := by rw [bit_eq, hd]
      rw [if_pos hb]
      have h1 : bitlen s ≤ n + 1 := (bitlen_le_iff _ _).mpr h
      have h2 : ¬ bitlen s ≤ n := fun hc => hs ((bitlen_le_iff _ _).mp hc)
      omega

end Sys2Proof.Machine
end

