-- ==== Sys2Proof/Laws/Datapath.lean ====
section
/-! SUPPORT. One lemma per arithmetic unit that says what number it computes: cite it instead of unfolding the unit. -/

namespace Sys2Proof.Machine

/-! ### Adder and subtractor -/

theorem addLoop_spec (a b n : Nat) :
    (addLoop a b n).1 + (addLoop a b n).2 * 65536 ^ n = a % 65536 ^ n + b % 65536 ^ n := by
  induction n with
  | zero => simp [addLoop, Nat.mod_one]
  | succ n ih =>
    rw [mod_pow_succ a, mod_pow_succ b]
    simp only [addLoop]
    set t := seg a n + seg b n + (addLoop a b n).2 with ht
    have hsplit : t % 65536 + 65536 * (t / 65536) = t := Nat.mod_add_div t 65536
    calc (addLoop a b n).1 + t % 65536 * 65536 ^ n + t / 65536 * 65536 ^ (n + 1)
        = (addLoop a b n).1 + (t % 65536 + 65536 * (t / 65536)) * 65536 ^ n := by rw [pow_succ]; ring
      _ = ((addLoop a b n).1 + (addLoop a b n).2 * 65536 ^ n) + (seg a n + seg b n) * 65536 ^ n := by
          rw [hsplit, ht]; ring
      _ = _ := by rw [ih]; ring

/-- The carry into a segment is 0 or 1 (R160). -/
theorem addLoop_carry_le_one (a b n : Nat) : (addLoop a b n).2 ≤ 1 := by
  induction n with
  | zero => simp [addLoop]
  | succ n ih =>
    have := seg_lt a n; have := seg_lt b n
    simp only [addLoop]; omega

/-- The carry chain computes the sum (R160). -/
theorem addChain_eq (a b : Nat) : addChain a b = a + b := by
  have ha : a < 65536 ^ max (len a) (len b) := (len_le_iff _ _).mp (le_max_left _ _)
  have hb : b < 65536 ^ max (len a) (len b) := (len_le_iff _ _).mp (le_max_right _ _)
  have h := addLoop_spec a b (max (len a) (len b))
  rw [Nat.mod_eq_of_lt ha, Nat.mod_eq_of_lt hb] at h
  exact h

theorem subLoop_spec (a b n : Nat) :
    (subLoop a b n).1 + b % 65536 ^ n = a % 65536 ^ n + (subLoop a b n).2 * 65536 ^ n ∧
      (subLoop a b n).2 ≤ 1 ∧ (subLoop a b n).1 < 65536 ^ n := by
  induction n with
  | zero => simp [subLoop, Nat.mod_one]
  | succ n ih =>
    obtain ⟨ih, hle, hlt⟩ := ih
    have hsa := seg_lt a n
    have hsb := seg_lt b n
    rw [mod_pow_succ a, mod_pow_succ b]
    simp only [subLoop]
    split
    · next ht =>
      obtain ⟨u, hu⟩ : ∃ u : Nat, u = ((seg a n : Int) - (seg b n : Int) - ((subLoop a b n).2 : Int) + 65536).toNat := ⟨_, rfl⟩
      have hu2 : u + seg b n + (subLoop a b n).2 = seg a n + 65536 := by omega
      have hu3 : u ≤ 65535 := by omega
      rw [← hu]
      refine ⟨?_, le_rfl, ?_⟩
      · rw [pow_succ]
        have : u * 65536 ^ n + seg b n * 65536 ^ n + (subLoop a b n).2 * 65536 ^ n
            = seg a n * 65536 ^ n + 65536 * 65536 ^ n := by rw [← add_mul, ← add_mul, hu2, add_mul]
        linarith
      · have : u * 65536 ^ n ≤ 65535 * 65536 ^ n := Nat.mul_le_mul_right _ hu3
        rw [pow_succ]; linarith
    · next ht =>
      obtain ⟨u, hu⟩ : ∃ u : Nat, u = ((seg a n : Int) - (seg b n : Int) - ((subLoop a b n).2 : Int)).toNat := ⟨_, rfl⟩
      have hu2 : u + seg b n + (subLoop a b n).2 = seg a n := by omega
      have hu3 : u ≤ 65535 := by omega
      rw [← hu]
      refine ⟨?_, Nat.zero_le _, ?_⟩
      · have : u * 65536 ^ n + seg b n * 65536 ^ n + (subLoop a b n).2 * 65536 ^ n
            = seg a n * 65536 ^ n := by rw [← add_mul, ← add_mul, hu2]
        linarith
      · have : u * 65536 ^ n ≤ 65535 * 65536 ^ n := Nat.mul_le_mul_right _ hu3
        rw [pow_succ]; linarith

/-- The borrow chain computes the difference, and a borrow leaves the top exactly when the minuend is smaller (R161). -/
theorem subChain_eq (a b : Nat) : subChain a b = if a < b then none else some (a - b) := by
  have ha : a < 65536 ^ max (len a) (len b) := (len_le_iff _ _).mp (le_max_left _ _)
  have hb : b < 65536 ^ max (len a) (len b) := (len_le_iff _ _).mp (le_max_right _ _)
  obtain ⟨h, hle, hlt⟩ := subLoop_spec a b (max (len a) (len b))
  rw [Nat.mod_eq_of_lt ha, Nat.mod_eq_of_lt hb] at h
  unfold subChain
  simp only
  by_cases hb1 : (subLoop a b (max (len a) (len b))).2 = 1
  · rw [if_pos hb1, if_pos]
    rw [hb1] at h; omega
  · have h0 : (subLoop a b (max (len a) (len b))).2 = 0 := by omega
    rw [if_neg hb1, if_neg]
    · rw [h0] at h; congr 1; omega
    · rw [h0] at h; omega

/-! ### Multipliers -/

theorem mulRow_eq (a b i n p : Nat) : mulRow a b i n p = p + seg a i * 65536 ^ i * (b % 65536 ^ n) := by
  induction n with
  | zero => simp [mulRow, Nat.mod_one]
  | succ n ih => rw [mulRow, ih, mod_pow_succ b, pow_add]; ring

theorem mulLoop_eq (a b n : Nat) : mulLoop a b n = a % 65536 ^ n * b := by
  induction n with
  | zero => simp [mulLoop, Nat.mod_one]
  | succ n ih =>
    rw [mulLoop, mulRow_eq, ih, Nat.mod_eq_of_lt (lt_pow_len b), mod_pow_succ a]; ring

/-- The schoolbook double loop computes the product (R180). -/
theorem mulSchool_eq (a b : Nat) : mulSchool a b = a * b := by
  rw [mulSchool, mulLoop_eq, Nat.mod_eq_of_lt (lt_pow_len a)]

theorem muliLoop_spec (a m n : Nat) :
    (muliLoop a m n).1 + (muliLoop a m n).2 * 65536 ^ n = a % 65536 ^ n * m := by
  induction n with
  | zero => simp [muliLoop, Nat.mod_one]
  | succ n ih =>
    rw [mod_pow_succ a]
    simp only [muliLoop]
    set t := seg a n * m + (muliLoop a m n).2 with ht
    have hsplit : t % 65536 + 65536 * (t / 65536) = t := Nat.mod_add_div t 65536
    calc (muliLoop a m n).1 + t % 65536 * 65536 ^ n + t / 65536 * 65536 ^ (n + 1)
        = (muliLoop a m n).1 + (t % 65536 + 65536 * (t / 65536)) * 65536 ^ n := by rw [pow_succ]; ring
      _ = ((muliLoop a m n).1 + (muliLoop a m n).2 * 65536 ^ n) + seg a n * m * 65536 ^ n := by
          rw [hsplit, ht]; ring
      _ = _ := by rw [ih]; ring

/-- The one-segment multiplier computes the product (R181). -/
theorem muliChain_eq (a m : Nat) : muliChain a m = a * m := by
  have h := muliLoop_spec a m (len a)
  rw [Nat.mod_eq_of_lt (lt_pow_len a)] at h
  exact h

theorem mulModLoop_eq (a b n : Nat) : ∀ i acc, acc < n →
    mulModLoop a b n i acc = (acc * 65536 ^ i + a % 65536 ^ i * b) % n
  | 0, acc, h => by simp [mulModLoop, Nat.mod_one, Nat.mod_eq_of_lt h]
  | i + 1, acc, h => by
    rw [mulModLoop, mulModLoop_eq a b n i _ (Nat.mod_lt _ (by omega)), mod_pow_succ a]
    rw [Nat.add_mod, Nat.mul_mod, Nat.mod_mod, ← Nat.mul_mod, ← Nat.add_mod]
    congr 1
    rw [pow_succ]; ring

/-- The modular multiplier computes the product modulo n (R182). -/
theorem mulMod_eq (a b n : Nat) (hn : 0 < n) : mulMod a b n = a * b % n := by
  rw [mulMod, mulModLoop_eq a b n _ 0 hn, Nat.mod_eq_of_lt (lt_pow_len a)]
  simp

/-! ### Long division -/

theorem or_shift_eq_add {q k : Nat} (h : q % 2 ^ (k + 1) = 0) : q ||| (1 <<< k) = q + 2 ^ k := by
  have hq : q = 2 ^ (k + 1) * (q / 2 ^ (k + 1)) := by
    have := Nat.mod_add_div q (2 ^ (k + 1)); omega
  rw [Nat.one_shiftLeft, hq, Nat.two_pow_add_eq_or_of_lt (by rw [pow_succ]; have := Nat.two_pow_pos k; omega)]

theorem divideLoop_eq (b : Nat) (hb : 0 < b) : ∀ n d r q, (0 < n → d = b * 2 ^ (n - 1)) → r < b * 2 ^ n →
    q % 2 ^ n = 0 → divideLoop n d r q = (q + r / b, r % b)
  | 0, d, r, q, _, hr, _ => by
    simp only [pow_zero, mul_one] at hr
    simp [divideLoop, Nat.div_eq_of_lt hr, Nat.mod_eq_of_lt hr]
  | k + 1, d, r, q, hd, hr, hq => by
    have hd : d = b * 2 ^ k := hd (by omega)
    have hd2 : 0 < k → d >>> 1 = b * 2 ^ (k - 1) := by
      intro hk
      obtain ⟨j, rfl⟩ : ∃ j, k = j + 1 := ⟨k - 1, by omega⟩
      rw [hd, Nat.shiftRight_one, pow_succ, ← mul_assoc, Nat.mul_div_cancel _ (by norm_num)]
      rfl
    have hq' : q % 2 ^ k = 0 := by
      have h1 : 2 ^ k ∣ 2 ^ (k + 1) := pow_dvd_pow 2 (by omega)
      exact Nat.mod_eq_zero_of_dvd (h1.trans (Nat.dvd_of_mod_eq_zero hq))
    rw [divideLoop]
    split
    · next hle =>
      rw [or_shift_eq_add hq, divideLoop_eq b hb k _ _ _ hd2 (by rw [pow_succ, mul_comm _ 2, mul_left_comm] at hr; omega)
        (by rw [Nat.add_mod, hq', Nat.mod_self]; simp)]
      have hr2 : r = (r - d) + b * 2 ^ k := by omega
      congr 1
      · conv_rhs => rw [hr2, Nat.add_mul_div_left _ _ hb]
        omega
      · conv_rhs => rw [hr2, Nat.add_mul_mod_self_left]
    · next hle =>
      exact divideLoop_eq b hb k _ _ _ hd2 (by omega) hq'

/-- The long-division engine computes floor division (R183). -/
theorem longDivide_eq (a b : Nat) (hb : 0 < b) : longDivide a b = (a / b, a % b) := by
  unfold longDivide
  split
  · next hle =>
    have hmono : bitlen b ≤ bitlen a := by
      rw [bitlen_le_iff]; exact lt_of_le_of_lt hle (lt_two_pow_bitlen a)
    have hbig : a < b * 2 ^ (bitlen a - bitlen b + 1) := by
      have h1 : 2 ^ (bitlen b - 1) ≤ b := two_pow_le_of_lt_bitlen (by have := bitlen_pos (v := b) (by omega); omega)
      have h2 := lt_two_pow_bitlen a
      have h3 : 2 ^ bitlen a = 2 ^ (bitlen b - 1) * 2 ^ (bitlen a - bitlen b + 1) := by
        rw [← pow_add]; congr 1; have := bitlen_pos (v := b) (by omega); omega
      calc a < 2 ^ bitlen a := h2
        _ = 2 ^ (bitlen b - 1) * 2 ^ (bitlen a - bitlen b + 1) := h3
        _ ≤ _ := Nat.mul_le_mul_right _ h1
    simp only
    rw [divideLoop_eq b hb _ _ _ _ (by intro _; rw [Nat.shiftLeft_eq]; simp) hbig (by simp)]
    simp
  · next hle =>
    rw [Nat.div_eq_of_lt (by omega), Nat.mod_eq_of_lt (by omega)]

/-! ### Shifter -/

theorem seg_testBit (v i j : Nat) : (seg v i).testBit j = (decide (j < 16) && v.testBit (16 * i + j)) := by
  unfold seg
  rw [show (0xFFFF : Nat) = 2 ^ 16 - 1 by norm_num, Nat.and_two_pow_sub_one_eq_mod, Nat.testBit_mod_two_pow,
    Nat.testBit_shiftRight]

theorem low16_testBit (v j : Nat) : (v &&& 0xFFFF).testBit j = (decide (j < 16) && v.testBit j) := by
  rw [show (0xFFFF : Nat) = 2 ^ 16 - 1 by norm_num, Nat.and_two_pow_sub_one_eq_mod, Nat.testBit_mod_two_pow]

theorem shiftLeftSeg_eq (a w s i : Nat) (hs : s < 16) : shiftLeftSeg a w s i = seg (a <<< (16 * w + s)) i := by
  apply Nat.eq_of_testBit_eq
  intro j
  unfold shiftLeftSeg
  simp only
  rw [seg_testBit, Nat.testBit_shiftLeft]
  by_cases h0 : s = 0
  · subst h0
    rw [if_pos rfl]
    by_cases hw : w ≤ i
    · rw [if_pos hw, seg_testBit]
      rw [show 16 * i + j - (16 * w + 0) = 16 * (i - w) + j by omega]
      have : 16 * i + j ≥ 16 * w + 0 := by omega
      rw [decide_eq_true this, Bool.true_and]
    · rw [if_neg hw, Nat.zero_testBit]
      by_cases hj : j < 16
      · have : ¬ (16 * i + j ≥ 16 * w + 0) := by omega
        rw [decide_eq_false this, Bool.false_and, Bool.and_false]
      · rw [decide_eq_false hj, Bool.false_and]
  · rw [if_neg h0, low16_testBit, Nat.testBit_or, Nat.testBit_shiftLeft, Nat.testBit_shiftRight]
    by_cases hj : j < 16
    · by_cases hsj : s ≤ j
      · have hlo : ∀ x : Nat, (if w + 1 ≤ i then seg a x else 0).testBit (16 - s + j) = false := by
          intro x; split
          · rw [seg_testBit]; have : ¬ (16 - s + j < 16) := by omega
            simp [this]
          · simp
        rw [hlo]
        by_cases hw : w ≤ i
        · rw [if_pos hw, seg_testBit]
          rw [show 16 * i + j - (16 * w + s) = 16 * (i - w) + (j - s) by omega]
          have : 16 * w + s ≤ 16 * i + j := by omega
          have : j - s < 16 := by omega
          simp [*]
        · rw [if_neg hw]
          have : ¬ (16 * w + s ≤ 16 * i + j) := by omega
          simp [this]
      · have hge : ¬ (j ≥ s) := by omega
        by_cases hw : w + 1 ≤ i
        · rw [if_pos hw, seg_testBit]
          rw [show 16 * i + j - (16 * w + s) = 16 * (i - w - 1) + (16 - s + j) by omega]
          have : 16 * w + s ≤ 16 * i + j := by omega
          have : 16 - s + j < 16 := by omega
          simp [*]
        · rw [if_neg hw]
          have : ¬ (16 * w + s ≤ 16 * i + j) := by omega
          have h2 : ¬ (s ≤ j) := by omega
          simp [this, h2]
    · simp [hj]

theorem shiftRightSeg_eq (a w s i : Nat) (hs : s < 16) : shiftRightSeg a w s i = seg (a >>> (16 * w + s)) i := by
  apply Nat.eq_of_testBit_eq
  intro j
  unfold shiftRightSeg
  simp only
  rw [seg_testBit, Nat.testBit_shiftRight]
  by_cases h0 : s = 0
  · subst h0
    rw [if_pos rfl, seg_testBit]
    rw [show 16 * w + 0 + (16 * i + j) = 16 * (i + w) + j by omega]
  · rw [if_neg h0, low16_testBit, Nat.testBit_or, Nat.testBit_shiftLeft, Nat.testBit_shiftRight]
    by_cases hj : j < 16
    · rw [seg_testBit, seg_testBit]
      by_cases hsj : s + j < 16
      · rw [show 16 * w + s + (16 * i + j) = 16 * (i + w) + (s + j) by omega]
        have : ¬ (16 - s ≤ j) := by omega
        simp [*]
      · rw [show 16 * w + s + (16 * i + j) = 16 * (i + w + 1) + (j - (16 - s)) by omega]
        have : 16 - s ≤ j := by omega
        have : j - (16 - s) < 16 := by omega
        simp [*]
    · simp [hj]

/-- The left shifter computes `a * 2^k`, and gives nothing exactly when a nonzero value would need more bits (R210). -/
theorem shiftLeft_eq (capBits a k : Nat) :
    shiftLeft capBits a k = if a ≠ 0 ∧ capBits < bitlen a + k then none else some (a * 2 ^ k) := by
  unfold shiftLeft
  by_cases ha : a = 0
  · subst ha; simp
  · rw [if_neg ha]
    by_cases hc : capBits < bitlen a + k
    · rw [if_pos hc, if_pos ⟨ha, hc⟩]
    · rw [if_neg hc, if_neg (by tauto)]
      congr 1
      rw [sumSegs_congr (fun i _ => shiftLeftSeg_eq a (k / 16) (k % 16) i (Nat.mod_lt _ (by norm_num))),
        show 16 * (k / 16) + k % 16 = k by omega, sumSegs_seg_of_lt, Nat.shiftLeft_eq]
      rw [Nat.shiftLeft_eq]
      have h1 := lt_pow_len a
      have h2 : (2 : Nat) ^ k ≤ 65536 ^ (k / 16 + 1) := by
        rw [show (65536 : Nat) = 2 ^ 16 by norm_num, ← pow_mul]
        exact Nat.pow_le_pow_right (by norm_num) (by omega)
      calc a * 2 ^ k < 65536 ^ len a * 2 ^ k := Nat.mul_lt_mul_of_pos_right h1 (Nat.two_pow_pos k)
        _ ≤ 65536 ^ len a * 65536 ^ (k / 16 + 1) := Nat.mul_le_mul_left _ h2
        _ = _ := by rw [← pow_add]; rfl

/-- The right shifter computes `a div 2^k` (R210). -/
theorem shiftRight_eq (a k : Nat) : shiftRight a k = a / 2 ^ k := by
  unfold shiftRight
  rw [sumSegs_congr (fun i _ => shiftRightSeg_eq a (k / 16) (k % 16) i (Nat.mod_lt _ (by norm_num))),
    show 16 * (k / 16) + k % 16 = k by omega, sumSegs_seg_of_lt, Nat.shiftRight_eq_div_pow]
  rw [Nat.shiftRight_eq_div_pow]
  exact lt_of_le_of_lt (Nat.div_le_self _ _) (lt_pow_len a)

/-! ### Bit length and comparison -/

/-- The bit length read from the top segment is the bit length (R232). -/
theorem bitLength_eq (a : Nat) : bitLength a = bitlen a := by
  unfold bitLength
  split
  · next h => subst h; rfl
  · next h =>
    have hl := len_pos h
    have hlt : a / 65536 ^ (len a - 1) < 65536 := by
      rw [Nat.div_lt_iff_lt_mul (by positivity), mul_comm, ← pow_succ, show len a - 1 + 1 = len a by omega]
      exact lt_pow_len a
    have hseg : seg a (len a - 1) = a / 65536 ^ (len a - 1) := by rw [seg_eq, Nat.mod_eq_of_lt hlt]
    have hz := leadingZeros_add_bitlen (s := seg a (len a - 1)) (n := 16) (seg_lt a _)
    have hb : bitlen a = bitlen (seg a (len a - 1)) + 16 * (len a - 1) := by
      apply le_antisymm
      · rw [bitlen_le_iff, pow_add, hseg, pow_mul, show (2 : Nat) ^ 16 = 65536 by norm_num,
          ← Nat.div_lt_iff_lt_mul (by positivity)]
        exact lt_two_pow_bitlen _
      · by_contra hc
        have h2 : bitlen (seg a (len a - 1)) ≤ bitlen a - 16 * (len a - 1) := by
          rw [bitlen_le_iff, hseg, Nat.div_lt_iff_lt_mul (by positivity),
            show (65536 : Nat) = 2 ^ 16 by norm_num, ← pow_mul, ← pow_add]
          exact lt_of_lt_of_le (lt_two_pow_bitlen a) (Nat.pow_le_pow_right (by norm_num) (by omega))
        have h3 := len_eq_bitlen a
        omega
    unfold clz16
    omega

theorem compareLoop_eq (a b n : Nat) : compareLoop a b n = compare (a % 65536 ^ n) (b % 65536 ^ n) := by
  induction n with
  | zero => simp [compareLoop, Nat.mod_one]
  | succ n ih =>
    rw [compareLoop, mod_pow_succ a, mod_pow_succ b]
    have ha : a % 65536 ^ n < 65536 ^ n := Nat.mod_lt _ (by positivity)
    have hb : b % 65536 ^ n < 65536 ^ n := Nat.mod_lt _ (by positivity)
    by_cases hne : seg a n = seg b n
    · rw [if_neg (not_not.mpr hne), ih, hne]
      rcases lt_trichotomy (a % 65536 ^ n) (b % 65536 ^ n) with h | h | h
      · rw [compare_lt_iff_lt.mpr h, compare_lt_iff_lt.mpr (by omega)]
      · rw [h]; simp
      · rw [compare_gt_iff_gt.mpr h, compare_gt_iff_gt.mpr (by omega)]
    · rw [if_pos hne]
      rcases Nat.lt_or_gt_of_ne hne with h | h
      · rw [if_pos h, Eq.comm, compare_lt_iff_lt]
        have : (seg a n + 1) * 65536 ^ n ≤ seg b n * 65536 ^ n := Nat.mul_le_mul_right _ h
        rw [add_mul] at this; omega
      · rw [if_neg (by omega), Eq.comm, compare_gt_iff_gt]
        have : (seg b n + 1) * 65536 ^ n ≤ seg a n * 65536 ^ n := Nat.mul_le_mul_right _ h
        rw [add_mul] at this; omega

/-- The comparator computes the numeric order (R234). -/
theorem compareSegs_eq (a b : Nat) : compareSegs a b = compare a b := by
  unfold compareSegs
  by_cases hl : len a = len b
  · rw [if_neg (not_not.mpr hl), compareLoop_eq, Nat.mod_eq_of_lt (lt_pow_len a), hl, Nat.mod_eq_of_lt (lt_pow_len b)]
  · rw [if_pos hl]
    have key : ∀ {x y : Nat}, len x < len y → x < y := by
      intro x y h
      by_contra hc
      have : len y ≤ len x := (len_le_iff _ _).mpr (lt_of_le_of_lt (by omega) (lt_pow_len x))
      omega
    rcases Nat.lt_or_gt_of_ne hl with h | h
    · rw [if_pos h, Eq.comm, compare_lt_iff_lt]; exact key h
    · rw [if_neg (by omega), Eq.comm, compare_gt_iff_gt]; exact key h

/-! ### Modular exponentiation -/

theorem expLoop_eq (a b c : Nat) (hc : 0 < c) : ∀ n d, d < c →
    expLoop a b c n d = d ^ 2 ^ n * a ^ (b % 2 ^ n) % c
  | 0, d, hd => by simp [expLoop, Nat.mod_one, Nat.mod_eq_of_lt hd]
  | i + 1, d, hd => by
    rw [expLoop]
    simp only [mulMod_eq _ _ _ hc]
    have hb : b % 2 ^ (i + 1) = b % 2 ^ i + bit b i * 2 ^ i := by rw [bit_eq, pow_succ, Nat.mod_mul]; ring
    rw [hb]
    by_cases h1 : bit b i = 1
    · rw [if_pos h1, expLoop_eq a b c hc i _ (Nat.mod_lt _ hc), h1]
      have h : d * d % c * a % c ≡ d * d * a [MOD c] := (Nat.mod_modEq _ _).trans ((Nat.mod_modEq _ _).mul_right _)
      have e : d ^ 2 ^ (i + 1) * a ^ (b % 2 ^ i + 1 * 2 ^ i) = (d * d * a) ^ 2 ^ i * a ^ (b % 2 ^ i) := by
        rw [pow_succ, mul_comm _ 2, pow_mul, one_mul, pow_add, mul_pow, sq]; ring
      rw [e]
      exact (h.pow _).mul_right _
    · have h0 : bit b i = 0 := by
        have := Nat.mod_lt (b / 2 ^ i) (show 0 < 2 by norm_num)
        rw [← bit_eq] at this; omega
      rw [if_neg h1, expLoop_eq a b c hc i _ (Nat.mod_lt _ hc), h0]
      have e : d ^ 2 ^ (i + 1) * a ^ (b % 2 ^ i + 0 * 2 ^ i) = (d * d) ^ 2 ^ i * a ^ (b % 2 ^ i) := by
        rw [pow_succ, mul_comm _ 2, pow_mul, zero_mul, add_zero, sq]
      rw [e]
      exact ((Nat.mod_modEq _ _).pow _).mul_right _

/-- The exponentiation engine computes `a^b mod c` (R250). -/
theorem expMod_eq (a b c : Nat) (hc : 0 < c) : expMod a b c = a ^ b % c := by
  rw [expMod, expLoop_eq a b c hc _ _ (Nat.mod_lt _ hc), Nat.mod_eq_of_lt (lt_two_pow_bitlen b)]
  rw [Nat.mul_mod, ← Nat.pow_mod, one_pow, ← Nat.mul_mod, one_mul]

/-! ### Extended Euclid -/

theorem euclidLoop_spec : ∀ fuel a b, b < fuel → (0 < a ∨ b = 0) →
    (euclidLoop fuel a b).1 = Nat.gcd a b ∧
      a * (euclidLoop fuel a b).2.1 = (euclidLoop fuel a b).1 + b * (euclidLoop fuel a b).2.2
  | 0, a, b, h, _ => by omega
  | fuel + 1, a, b, h, hab => by
    rw [euclidLoop]
    split
    · next hb => subst hb; simp
    · next hb =>
      have ha : 0 < a := by omega
      have hb : 0 < b := Nat.pos_of_ne_zero hb
      obtain ⟨hg, he⟩ := euclidLoop_spec fuel b (a % b) (by have := Nat.mod_lt a hb; omega) (Or.inl hb)
      simp only
      generalize euclidLoop fuel b (a % b) = t at hg he
      obtain ⟨d, x1, y1⟩ := t
      simp only at hg he ⊢
      refine ⟨by rw [hg, Nat.gcd_comm a b, Nat.gcd_rec b a, Nat.gcd_comm], ?_⟩
      set m := max (ceilDiv y1 b) (ceilDiv (x1 + a / b * y1) a) with hm
      have h1 : y1 ≤ m * b := (ceilDiv_le_iff hb).mp (le_max_left _ _)
      have h2 : x1 + a / b * y1 ≤ m * a := (ceilDiv_le_iff ha).mp (le_max_right _ _)
      have hdm := Nat.div_add_mod a b
      generalize a / b = q at h2 hdm ⊢
      generalize a % b = r at he hdm
      clear_value m
      zify [h1, show x1 ≤ m * a by omega, show q * y1 ≤ m * a - x1 by omega]
      zify at he hdm
      rw [← hdm]
      linear_combination he

/-- The Extended-Euclid engine gives the greatest common divisor and coefficients with `d = a*x - b*y` (R255, R257). -/
theorem extendedEuclid_spec (a b : Nat) (h : 0 < a ∨ b = 0) :
    (extendedEuclid a b).1 = Nat.gcd a b ∧
      a * (extendedEuclid a b).2.1 = (extendedEuclid a b).1 + b * (extendedEuclid a b).2.2 :=
  euclidLoop_spec _ a b (Nat.lt_succ_self b) h

theorem euclidLoop_bounds : ∀ fuel a b, 0 < a → 0 < b →
    (euclidLoop fuel a b).2.1 ≤ max b 1 ∧ (euclidLoop fuel a b).2.2 ≤ a
  | 0, a, b, _, _ => by simp [euclidLoop]
  | fuel + 1, a, b, ha, hb => by
    rw [euclidLoop, if_neg (by omega)]
    simp only
    have hm : max (ceilDiv (euclidLoop fuel b (a % b)).2.2 b)
        (ceilDiv ((euclidLoop fuel b (a % b)).2.1 + a / b * (euclidLoop fuel b (a % b)).2.2) a) ≤ 1 := by
      apply max_le
      · rw [ceilDiv_le_iff hb, one_mul]
        by_cases hr : a % b = 0
        · rw [hr]; cases fuel <;> simp [euclidLoop]
        · exact (euclidLoop_bounds fuel b (a % b) hb (Nat.pos_of_ne_zero hr)).2
      · rw [ceilDiv_le_iff ha, one_mul]
        by_cases hr : a % b = 0
        · rw [hr]; cases fuel <;> (simp [euclidLoop]; omega)
        · obtain ⟨h1, h2⟩ := euclidLoop_bounds fuel b (a % b) hb (Nat.pos_of_ne_zero hr)
          have h3 : a / b * (euclidLoop fuel b (a % b)).2.2 ≤ a / b * b := Nat.mul_le_mul_left _ h2
          have h4 := Nat.div_add_mod a b
          rw [mul_comm] at h4
          omega
    generalize max (ceilDiv (euclidLoop fuel b (a % b)).2.2 b)
        (ceilDiv ((euclidLoop fuel b (a % b)).2.1 + a / b * (euclidLoop fuel b (a % b)).2.2) a) = m at hm
    have hb' : m * b ≤ b := by nlinarith
    have ha' : m * a ≤ a := by nlinarith
    constructor <;> omega

/-- The coefficients stay within the operands: `X ≤ b` and `Y ≤ a` for positive operands (R257). -/
theorem extendedEuclid_bounds (a b : Nat) (ha : 0 < a) (hb : 0 < b) :
    (extendedEuclid a b).2.1 ≤ b ∧ (extendedEuclid a b).2.2 ≤ a := by
  have h := euclidLoop_bounds (b + 1) a b ha hb
  rw [Nat.max_eq_left hb] at h
  exact h

/-- The inverse exists exactly for operands with greatest common divisor 1, lies below the modulus, and inverts (R260). -/
theorem modInverse_spec (a n : Nat) (hn : 0 < n) :
    (modInverse a n = none ∧ Nat.gcd a n ≠ 1) ∨
      ∃ r, modInverse a n = some r ∧ Nat.gcd a n = 1 ∧ r < n ∧ a * r % n = 1 % n := by
  unfold modInverse
  split
  · next h1 => subst h1; exact Or.inr ⟨0, rfl, by simp, by norm_num, by simp⟩
  · next h1 =>
    split
    · next h0 => subst h0; left; simpa using h1
    · next h0 =>
      obtain ⟨hg, he⟩ := extendedEuclid_spec a n (Or.inl (Nat.pos_of_ne_zero h0))
      simp only
      split
      · next hd =>
        right
        refine ⟨_, rfl, by rw [← hg, hd], Nat.mod_lt _ hn, ?_⟩
        rw [Nat.mul_mod, Nat.mod_mod, ← Nat.mul_mod, he, hd, Nat.add_mul_mod_self_left]
      · next hd => exact Or.inl ⟨rfl, by rw [← hg]; exact hd⟩

/-! ### Draws -/

theorem drawInto_mem {lo hi : Nat} (v : Nat) (h : lo ≤ hi) : lo ≤ drawInto lo hi v ∧ drawInto lo hi v ≤ hi := by
  unfold drawInto
  have := Nat.mod_lt (v - lo) (show 0 < hi - lo + 1 by omega)
  omega

/-- A supplied draw that lies in the range is the draw (R268). -/
theorem drawInto_of_mem {lo hi v : Nat} (h1 : lo ≤ v) (h2 : v ≤ hi) : drawInto lo hi v = v := by
  unfold drawInto
  rw [Nat.mod_eq_of_lt (by omega)]
  omega

theorem draw_mem (s : State) {lo hi : Nat} (h : lo ≤ hi) : lo ≤ (s.draw lo hi).1 ∧ (s.draw lo hi).1 ≤ hi := by
  unfold State.draw
  split <;> exact drawInto_mem _ h

/-- A draw takes one input and changes nothing else of the state. -/
theorem draw_state (s : State) (lo hi : Nat) :
    (s.draw lo hi).2 = { s with draws := s.draws.drop 1, drawsTaken := s.drawsTaken + 1 } := by
  unfold State.draw
  split <;> simp [*]

/-- The rounds take at most as many draws as rounds, and change nothing else of the state (R269). -/
theorem testRounds_state (n : Nat) : ∀ rounds s, ∃ k, k ≤ rounds ∧
    (testRounds n rounds s).2 = { s with draws := s.draws.drop k, drawsTaken := s.drawsTaken + k }
  | 0, s => ⟨0, le_rfl, by simp [testRounds]⟩
  | r + 1, s => by
    rw [testRounds]
    split
    · exact ⟨1, by omega, draw_state s _ _⟩
    · obtain ⟨k, hk, he⟩ := testRounds_state n r (s.draw 1 (max 1 (n - 1))).2
      refine ⟨k + 1, by omega, ?_⟩
      rw [he, draw_state]
      simp only [List.drop_drop, Nat.add_comm, Nat.add_left_comm]

end Sys2Proof.Machine
end

