-- ==== Sys2Proof/Laws/Decode.lean ====
section
/-! SUPPORT. The bits of an encoded word, the fields read back from it, and what an accepted word is. -/

namespace Sys2Proof

/-! ### Bits of fields and of encoded words -/

theorem regBits_regField (w : Word) (lo : Nat) : regBits (regField w lo) = w.extractLsb' lo 4 := rfl

theorem regField_of_extract {w : Word} {lo : Nat} {r : Reg} (h : w.extractLsb' lo 4 = regBits r) : regField w lo = r := by
  unfold regField; rw [h]; rfl

theorem getLsbD_regField (w : Word) (lo j : Nat) :
    (regBits (regField w lo)).getLsbD j = (decide (j < 4) && w.getLsbD (lo + j)) := by
  rw [regBits_regField, BitVec.getLsbD_extractLsb']

@[simp] theorem regBits_zero : regBits 0 = 0#4 := rfl

/-- Each bit of a word in a register format (R103, R105). -/
theorem getLsbD_packRegs (op : BitVec 8) (rd rs1 rs2 f11 f7 : Reg) (i : Nat) :
    (packRegs op rd rs1 rs2 f11 f7).getLsbD i =
      if i < 4 then false
      else if i < 8 then (regBits f7).getLsbD (i - 4)
      else if i < 12 then (regBits f11).getLsbD (i - 8)
      else if i < 16 then (regBits rs2).getLsbD (i - 12)
      else if i < 20 then (regBits rs1).getLsbD (i - 16)
      else if i < 24 then (regBits rd).getLsbD (i - 20)
      else op.getLsbD (i - 24) := by
  unfold packRegs
  show BitVec.getLsbD (w := 8 + 4 + 4 + 4 + 4 + 4 + 4) _ i = _
  simp only [BitVec.getLsbD_append, BitVec.getLsbD_zero]
  split_ifs <;> first | rfl | omega

/-- Each bit of a word in the immediate format (R104). -/
theorem getLsbD_packImm (op : BitVec 8) (rd rs1 : Reg) (imm : BitVec 16) (i : Nat) :
    (packImm op rd rs1 imm).getLsbD i =
      if i < 16 then imm.getLsbD i
      else if i < 20 then (regBits rs1).getLsbD (i - 16)
      else if i < 24 then (regBits rd).getLsbD (i - 20)
      else op.getLsbD (i - 24) := by
  unfold packImm
  show BitVec.getLsbD (w := 8 + 4 + 4 + 16) _ i = _
  simp only [BitVec.getLsbD_append]
  split_ifs <;> first | rfl | omega

/-! ### Fields read back -/

theorem opcodeOf_packRegs (op : BitVec 8) (rd rs1 rs2 f11 f7 : Reg) :
    opcodeOf (packRegs op rd rs1 rs2 f11 f7) = op := by
  apply BitVec.eq_of_getLsbD_eq
  intro i hi
  rw [opcodeOf, BitVec.getLsbD_extractLsb', getLsbD_packRegs]
  interval_cases i <;> simp

theorem opcodeOf_packImm (op : BitVec 8) (rd rs1 : Reg) (imm : BitVec 16) : opcodeOf (packImm op rd rs1 imm) = op := by
  apply BitVec.eq_of_getLsbD_eq
  intro i hi
  rw [opcodeOf, BitVec.getLsbD_extractLsb', getLsbD_packImm]
  interval_cases i <;> simp

theorem regField_packRegs_rd (op : BitVec 8) (rd rs1 rs2 f11 f7 : Reg) :
    regField (packRegs op rd rs1 rs2 f11 f7) 20 = rd := by
  apply regField_of_extract
  apply BitVec.eq_of_getLsbD_eq
  intro i hi
  rw [BitVec.getLsbD_extractLsb', getLsbD_packRegs]
  interval_cases i <;> simp

theorem regField_packRegs_rs1 (op : BitVec 8) (rd rs1 rs2 f11 f7 : Reg) :
    regField (packRegs op rd rs1 rs2 f11 f7) 16 = rs1 := by
  apply regField_of_extract
  apply BitVec.eq_of_getLsbD_eq
  intro i hi
  rw [BitVec.getLsbD_extractLsb', getLsbD_packRegs]
  interval_cases i <;> simp

theorem regField_packRegs_rs2 (op : BitVec 8) (rd rs1 rs2 f11 f7 : Reg) :
    regField (packRegs op rd rs1 rs2 f11 f7) 12 = rs2 := by
  apply regField_of_extract
  apply BitVec.eq_of_getLsbD_eq
  intro i hi
  rw [BitVec.getLsbD_extractLsb', getLsbD_packRegs]
  interval_cases i <;> simp

theorem regField_packRegs_f11 (op : BitVec 8) (rd rs1 rs2 f11 f7 : Reg) :
    regField (packRegs op rd rs1 rs2 f11 f7) 8 = f11 := by
  apply regField_of_extract
  apply BitVec.eq_of_getLsbD_eq
  intro i hi
  rw [BitVec.getLsbD_extractLsb', getLsbD_packRegs]
  interval_cases i <;> simp

theorem regField_packRegs_f7 (op : BitVec 8) (rd rs1 rs2 f11 f7 : Reg) :
    regField (packRegs op rd rs1 rs2 f11 f7) 4 = f7 := by
  apply regField_of_extract
  apply BitVec.eq_of_getLsbD_eq
  intro i hi
  rw [BitVec.getLsbD_extractLsb', getLsbD_packRegs]
  interval_cases i <;> simp

theorem regField_packImm_rd (op : BitVec 8) (rd rs1 : Reg) (imm : BitVec 16) :
    regField (packImm op rd rs1 imm) 20 = rd := by
  apply regField_of_extract
  apply BitVec.eq_of_getLsbD_eq
  intro i hi
  rw [BitVec.getLsbD_extractLsb', getLsbD_packImm]
  interval_cases i <;> simp

theorem regField_packImm_rs1 (op : BitVec 8) (rd rs1 : Reg) (imm : BitVec 16) :
    regField (packImm op rd rs1 imm) 16 = rs1 := by
  apply regField_of_extract
  apply BitVec.eq_of_getLsbD_eq
  intro i hi
  rw [BitVec.getLsbD_extractLsb', getLsbD_packImm]
  interval_cases i <;> simp

theorem immField_packImm (op : BitVec 8) (rd rs1 : Reg) (imm : BitVec 16) : immField (packImm op rd rs1 imm) = imm := by
  apply BitVec.eq_of_getLsbD_eq
  intro i hi
  rw [immField, BitVec.getLsbD_extractLsb', getLsbD_packImm]
  simp [hi]

/-! ### Accepted words -/

/-- What an accepted word is: its must-be-zero bits are zero and its command is well formed (R111, R112). -/
theorem accept_ok {w mbz : Word} {i j : Instr} (h : accept w mbz i = .ok j) :
    i = j ∧ w &&& mbz = 0#32 ∧ i.WellFormed := by
  unfold accept at h
  split at h
  · split at h
    · exact ⟨by simpa using h, ‹_›, ‹_›⟩
    · cases h
  · cases h

/-- A word with its must-be-zero bits zero and distinct destinations is accepted. -/
theorem accept_of {w mbz : Word} {i : Instr} (h : w &&& mbz = 0#32) (hi : i.WellFormed) : accept w mbz i = .ok i := by
  unfold accept; rw [if_pos h, if_pos hi]

/-- A masked word is zero exactly when the bits of the mask are zero in it. -/
theorem and_eq_zero_iff (w m : Word) : w &&& m = 0#32 ↔ ∀ i, i < 32 → m.getLsbD i = true → w.getLsbD i = false := by
  constructor
  · intro h i hi hm
    have := congrArg (fun v : Word => v.getLsbD i) h
    simpa [hm] using this
  · intro h
    apply BitVec.eq_of_getLsbD_eq
    intro i hi
    rw [BitVec.getLsbD_and, BitVec.getLsbD_zero]
    cases hm : m.getLsbD i with
    | false => simp
    | true => simp [h i hi hm]

/-- A register field inside the must-be-zero bits is 0. -/
theorem regField_eq_zero {w m : Word} (h : w &&& m = 0#32) (lo : Nat) (hm : m.extractLsb' lo 4 = 0xF#4) :
    regField w lo = 0 := by
  apply regField_of_extract
  apply BitVec.eq_of_getLsbD_eq
  intro j hj
  have h1 := congrArg (fun v : BitVec 4 => v.getLsbD j) hm
  simp only [BitVec.getLsbD_extractLsb', hj, decide_true, Bool.true_and] at h1
  have h2 : m.getLsbD (lo + j) = true := by rw [h1]; interval_cases j <;> rfl
  have h3 := congrArg (fun v : Word => v.getLsbD (lo + j)) h
  simp only [BitVec.getLsbD_and, h2, Bool.and_true, BitVec.getLsbD_zero] at h3
  rw [BitVec.getLsbD_extractLsb', h3]
  simp

/-- A word is the immediate-format word of its own fields. -/
theorem packImm_fields (w : Word) : packImm (opcodeOf w) (regField w 20) (regField w 16) (immField w) = w := by
  apply BitVec.eq_of_getLsbD_eq
  intro i hi
  rw [getLsbD_packImm]
  simp only [getLsbD_regField, opcodeOf, immField, BitVec.getLsbD_extractLsb']
  interval_cases i <;> simp

/-- A word whose low four bits are zero is the register-format word of its own fields. -/
theorem packRegs_fields {w m : Word} (h : w &&& m = 0#32) (hm : m.extractLsb' 0 4 = 0xF#4) :
    packRegs (opcodeOf w) (regField w 20) (regField w 16) (regField w 12) (regField w 8) (regField w 4) = w := by
  have h0 := congrArg regBits (regField_eq_zero h 0 hm)
  apply BitVec.eq_of_getLsbD_eq
  intro i hi
  have hz : i < 4 → w.getLsbD i = false := by
    intro h4
    have h1 := congrArg (fun v : BitVec 4 => v.getLsbD i) h0
    simp only [getLsbD_regField, h4, decide_true, Bool.true_and, regBits_zero, BitVec.getLsbD_zero, Nat.zero_add] at h1
    exact h1
  rw [getLsbD_packRegs]
  simp only [getLsbD_regField, opcodeOf, BitVec.getLsbD_extractLsb']
  interval_cases i <;> simp_all

/-! ### Words spelled field by field -/

/-- A format-R word with three register fields (R103). -/
theorem append_packRegs_three (op : BitVec 8) (rd rs1 rs2 : Reg) :
    (op ++ regBits rd ++ regBits rs1 ++ regBits rs2 ++ 0#12 : Word) = packRegs op rd rs1 rs2 0 0 := by
  apply BitVec.eq_of_getLsbD_eq
  intro k hk
  rw [getLsbD_packRegs]
  show BitVec.getLsbD (w := 8 + 4 + 4 + 4 + 12) _ k = _
  simp only [BitVec.getLsbD_append]
  interval_cases k <;> simp

/-- A format-R word with four register fields (R103). -/
theorem append_packRegs_four (op : BitVec 8) (rd rs1 rs2 f : Reg) :
    (op ++ regBits rd ++ regBits rs1 ++ regBits rs2 ++ regBits f ++ 0#8 : Word) = packRegs op rd rs1 rs2 f 0 := by
  apply BitVec.eq_of_getLsbD_eq
  intro k hk
  rw [getLsbD_packRegs]
  show BitVec.getLsbD (w := 8 + 4 + 4 + 4 + 4 + 8) _ k = _
  simp only [BitVec.getLsbD_append]
  interval_cases k <;> simp

/-- A format-R word with two register fields (R103). -/
theorem append_packRegs_two (op : BitVec 8) (rd rs1 : Reg) :
    (op ++ regBits rd ++ regBits rs1 ++ 0#16 : Word) = packRegs op rd rs1 0 0 0 := by
  apply BitVec.eq_of_getLsbD_eq
  intro k hk
  rw [getLsbD_packRegs]
  show BitVec.getLsbD (w := 8 + 4 + 4 + 16) _ k = _
  simp only [BitVec.getLsbD_append]
  interval_cases k <;> simp

/-- A format-R word with one register field (R103). -/
theorem append_packRegs_one (op : BitVec 8) (rd : Reg) :
    (op ++ regBits rd ++ 0#20 : Word) = packRegs op rd 0 0 0 0 := by
  apply BitVec.eq_of_getLsbD_eq
  intro k hk
  rw [getLsbD_packRegs]
  show BitVec.getLsbD (w := 8 + 4 + 20) _ k = _
  simp only [BitVec.getLsbD_append]
  interval_cases k <;> simp

/-! ### Assembler lines with an immediate (R120, R121) -/

theorem assembleOps_ldi (rd : Reg) (v : Int) :
    assembleOps "LDI" [.reg rd, .num v] = (asmUimm v).map (.ldi rd) := rfl
theorem assembleOps_muli (rd rs1 : Reg) (v : Int) :
    assembleOps "MULI" [.reg rd, .reg rs1, .num v] = (asmUimm v).map (.muli rd rs1) := rfl
theorem assembleOps_shl (rd rs1 : Reg) (v : Int) :
    assembleOps "SHL" [.reg rd, .reg rs1, .num v] = (asmSimm v).map (.shl rd rs1) := rfl
theorem assembleOps_shr (rd rs1 : Reg) (v : Int) :
    assembleOps "SHR" [.reg rd, .reg rs1, .num v] = (asmSimm v).map (.shr rd rs1) := rfl
theorem assembleOps_testbit (rs1 : Reg) (v : Int) :
    assembleOps "TESTBIT" [.reg rs1, .num v] = (asmUimm v).map (.testbit rs1) := rfl
theorem assembleOps_setbit (rd rs1 : Reg) (v : Int) :
    assembleOps "SETBIT" [.reg rd, .reg rs1, .num v] = (asmUimm v).map (.setbit rd rs1) := rfl
theorem assembleOps_mrtest (rs1 : Reg) (v : Int) :
    assembleOps "MRTEST" [.reg rs1, .num v] = (asmUimm v).map (.mrtest rs1) := rfl

end Sys2Proof
end

