-- ==== Sys2Proof/Laws/State.lean ====
section
/-! SUPPORT. What each named update of the state leaves in each field: one lemma per field and update, true by rfl. -/

namespace Sys2Proof.Machine

/-! ### setReg -/

@[simp] theorem State.setReg_params (s : State) (r : Reg) (v : Nat) : (s.setReg r v).params = s.params := rfl
@[simp] theorem State.setReg_regs (s : State) (r : Reg) (v : Nat) : (s.setReg r v).regs = s.regs.set r v := rfl
@[simp] theorem State.setReg_ctrl (s : State) (r : Reg) (v : Nat) : (s.setReg r v).ctrl = s.ctrl := rfl
@[simp] theorem State.setReg_status (s : State) (r : Reg) (v : Nat) : (s.setReg r v).status = s.status := rfl
@[simp] theorem State.setReg_flags (s : State) (r : Reg) (v : Nat) : (s.setReg r v).flags = s.flags := rfl
@[simp] theorem State.setReg_errCmd (s : State) (r : Reg) (v : Nat) : (s.setReg r v).errCmd = s.errCmd := rfl
@[simp] theorem State.setReg_cmdCnt (s : State) (r : Reg) (v : Nat) : (s.setReg r v).cmdCnt = s.cmdCnt := rfl
@[simp] theorem State.setReg_pend (s : State) (r : Reg) (v : Nat) : (s.setReg r v).pend = s.pend := rfl
@[simp] theorem State.setReg_wsel (s : State) (r : Reg) (v : Nat) : (s.setReg r v).wsel = s.wsel := rfl
@[simp] theorem State.setReg_widx (s : State) (r : Reg) (v : Nat) : (s.setReg r v).widx = s.widx := rfl
@[simp] theorem State.setReg_schedule (s : State) (r : Reg) (v : Nat) : (s.setReg r v).schedule = s.schedule := rfl
@[simp] theorem State.setReg_answer (s : State) (r : Reg) (v : Nat) : (s.setReg r v).answer = s.answer := rfl
@[simp] theorem State.setReg_draws (s : State) (r : Reg) (v : Nat) : (s.setReg r v).draws = s.draws := rfl
@[simp] theorem State.setReg_drawsTaken (s : State) (r : Reg) (v : Nat) : (s.setReg r v).drawsTaken = s.drawsTaken := rfl

/-! ### setZ -/

@[simp] theorem State.setZ_params (s : State) (v : Nat) : (s.setZ v).params = s.params := rfl
@[simp] theorem State.setZ_regs (s : State) (v : Nat) : (s.setZ v).regs = s.regs := rfl
@[simp] theorem State.setZ_ctrl (s : State) (v : Nat) : (s.setZ v).ctrl = s.ctrl := rfl
@[simp] theorem State.setZ_status (s : State) (v : Nat) : (s.setZ v).status = s.status := rfl
@[simp] theorem State.setZ_flags (s : State) (v : Nat) : (s.setZ v).flags = { s.flags with z := decide (v = 0) } := rfl
@[simp] theorem State.setZ_errCmd (s : State) (v : Nat) : (s.setZ v).errCmd = s.errCmd := rfl
@[simp] theorem State.setZ_cmdCnt (s : State) (v : Nat) : (s.setZ v).cmdCnt = s.cmdCnt := rfl
@[simp] theorem State.setZ_pend (s : State) (v : Nat) : (s.setZ v).pend = s.pend := rfl
@[simp] theorem State.setZ_wsel (s : State) (v : Nat) : (s.setZ v).wsel = s.wsel := rfl
@[simp] theorem State.setZ_widx (s : State) (v : Nat) : (s.setZ v).widx = s.widx := rfl
@[simp] theorem State.setZ_schedule (s : State) (v : Nat) : (s.setZ v).schedule = s.schedule := rfl
@[simp] theorem State.setZ_answer (s : State) (v : Nat) : (s.setZ v).answer = s.answer := rfl
@[simp] theorem State.setZ_draws (s : State) (v : Nat) : (s.setZ v).draws = s.draws := rfl
@[simp] theorem State.setZ_drawsTaken (s : State) (v : Nat) : (s.setZ v).drawsTaken = s.drawsTaken := rfl

/-! ### setB -/

@[simp] theorem State.setB_params (s : State) (b : Bool) : (s.setB b).params = s.params := rfl
@[simp] theorem State.setB_regs (s : State) (b : Bool) : (s.setB b).regs = s.regs := rfl
@[simp] theorem State.setB_ctrl (s : State) (b : Bool) : (s.setB b).ctrl = s.ctrl := rfl
@[simp] theorem State.setB_status (s : State) (b : Bool) : (s.setB b).status = s.status := rfl
@[simp] theorem State.setB_flags (s : State) (b : Bool) : (s.setB b).flags = { s.flags with b := b } := rfl
@[simp] theorem State.setB_errCmd (s : State) (b : Bool) : (s.setB b).errCmd = s.errCmd := rfl
@[simp] theorem State.setB_cmdCnt (s : State) (b : Bool) : (s.setB b).cmdCnt = s.cmdCnt := rfl
@[simp] theorem State.setB_pend (s : State) (b : Bool) : (s.setB b).pend = s.pend := rfl
@[simp] theorem State.setB_wsel (s : State) (b : Bool) : (s.setB b).wsel = s.wsel := rfl
@[simp] theorem State.setB_widx (s : State) (b : Bool) : (s.setB b).widx = s.widx := rfl
@[simp] theorem State.setB_schedule (s : State) (b : Bool) : (s.setB b).schedule = s.schedule := rfl
@[simp] theorem State.setB_answer (s : State) (b : Bool) : (s.setB b).answer = s.answer := rfl
@[simp] theorem State.setB_draws (s : State) (b : Bool) : (s.setB b).draws = s.draws := rfl
@[simp] theorem State.setB_drawsTaken (s : State) (b : Bool) : (s.setB b).drawsTaken = s.drawsTaken := rfl

/-! ### setOrder -/

@[simp] theorem State.setOrder_params (s : State) (o : Ordering) : (s.setOrder o).params = s.params := rfl
@[simp] theorem State.setOrder_regs (s : State) (o : Ordering) : (s.setOrder o).regs = s.regs := rfl
@[simp] theorem State.setOrder_ctrl (s : State) (o : Ordering) : (s.setOrder o).ctrl = s.ctrl := rfl
@[simp] theorem State.setOrder_status (s : State) (o : Ordering) : (s.setOrder o).status = s.status := rfl
@[simp] theorem State.setOrder_flags (s : State) (o : Ordering) : (s.setOrder o).flags = { s.flags with lt := o == .lt, eq := o == .eq, gt := o == .gt } := rfl
@[simp] theorem State.setOrder_errCmd (s : State) (o : Ordering) : (s.setOrder o).errCmd = s.errCmd := rfl
@[simp] theorem State.setOrder_cmdCnt (s : State) (o : Ordering) : (s.setOrder o).cmdCnt = s.cmdCnt := rfl
@[simp] theorem State.setOrder_pend (s : State) (o : Ordering) : (s.setOrder o).pend = s.pend := rfl
@[simp] theorem State.setOrder_wsel (s : State) (o : Ordering) : (s.setOrder o).wsel = s.wsel := rfl
@[simp] theorem State.setOrder_widx (s : State) (o : Ordering) : (s.setOrder o).widx = s.widx := rfl
@[simp] theorem State.setOrder_schedule (s : State) (o : Ordering) : (s.setOrder o).schedule = s.schedule := rfl
@[simp] theorem State.setOrder_answer (s : State) (o : Ordering) : (s.setOrder o).answer = s.answer := rfl
@[simp] theorem State.setOrder_draws (s : State) (o : Ordering) : (s.setOrder o).draws = s.draws := rfl
@[simp] theorem State.setOrder_drawsTaken (s : State) (o : Ordering) : (s.setOrder o).drawsTaken = s.drawsTaken := rfl

/-! ### finish -/

@[simp] theorem State.finish_params (s : State) : s.finish.params = s.params := rfl
@[simp] theorem State.finish_regs (s : State) : s.finish.regs = s.regs := rfl
@[simp] theorem State.finish_ctrl (s : State) : s.finish.ctrl = s.ctrl := rfl
@[simp] theorem State.finish_status (s : State) : s.finish.status = { s.status with busy := false, done := true } := rfl
@[simp] theorem State.finish_flags (s : State) : s.finish.flags = s.flags := rfl
@[simp] theorem State.finish_errCmd (s : State) : s.finish.errCmd = s.errCmd := rfl
@[simp] theorem State.finish_cmdCnt (s : State) : s.finish.cmdCnt = s.cmdCnt := rfl
@[simp] theorem State.finish_pend (s : State) : s.finish.pend = s.pend := rfl
@[simp] theorem State.finish_wsel (s : State) : s.finish.wsel = s.wsel := rfl
@[simp] theorem State.finish_widx (s : State) : s.finish.widx = s.widx := rfl
@[simp] theorem State.finish_schedule (s : State) : s.finish.schedule = s.schedule := rfl
@[simp] theorem State.finish_answer (s : State) : s.finish.answer = s.answer := rfl
@[simp] theorem State.finish_draws (s : State) : s.finish.draws = s.draws := rfl
@[simp] theorem State.finish_drawsTaken (s : State) : s.finish.drawsTaken = s.drawsTaken := rfl

/-! ### raiseFault -/

@[simp] theorem State.raiseFault_params (s : State) (f : FaultCode) : (s.raiseFault f).params = s.params := rfl
@[simp] theorem State.raiseFault_regs (s : State) (f : FaultCode) : (s.raiseFault f).regs = s.regs := rfl
@[simp] theorem State.raiseFault_ctrl (s : State) (f : FaultCode) : (s.raiseFault f).ctrl = s.ctrl := rfl
@[simp] theorem State.raiseFault_status (s : State) (f : FaultCode) : (s.raiseFault f).status = { s.status with busy := false, done := true, err := true, errCode := f.code } := rfl
@[simp] theorem State.raiseFault_flags (s : State) (f : FaultCode) : (s.raiseFault f).flags = s.flags := rfl
@[simp] theorem State.raiseFault_errCmd (s : State) (f : FaultCode) : (s.raiseFault f).errCmd = s.pend := rfl
@[simp] theorem State.raiseFault_cmdCnt (s : State) (f : FaultCode) : (s.raiseFault f).cmdCnt = s.cmdCnt := rfl
@[simp] theorem State.raiseFault_pend (s : State) (f : FaultCode) : (s.raiseFault f).pend = s.pend := rfl
@[simp] theorem State.raiseFault_wsel (s : State) (f : FaultCode) : (s.raiseFault f).wsel = s.wsel := rfl
@[simp] theorem State.raiseFault_widx (s : State) (f : FaultCode) : (s.raiseFault f).widx = s.widx := rfl
@[simp] theorem State.raiseFault_schedule (s : State) (f : FaultCode) : (s.raiseFault f).schedule = s.schedule := rfl
@[simp] theorem State.raiseFault_answer (s : State) (f : FaultCode) : (s.raiseFault f).answer = s.answer := rfl
@[simp] theorem State.raiseFault_draws (s : State) (f : FaultCode) : (s.raiseFault f).draws = s.draws := rfl
@[simp] theorem State.raiseFault_drawsTaken (s : State) (f : FaultCode) : (s.raiseFault f).drawsTaken = s.drawsTaken := rfl

/-! ### acknowledge -/

@[simp] theorem State.acknowledge_params (s : State) (w : Word) : (s.acknowledge w).params = s.params := rfl
@[simp] theorem State.acknowledge_regs (s : State) (w : Word) : (s.acknowledge w).regs = s.regs := rfl
@[simp] theorem State.acknowledge_ctrl (s : State) (w : Word) : (s.acknowledge w).ctrl = s.ctrl := rfl
@[simp] theorem State.acknowledge_flags (s : State) (w : Word) : (s.acknowledge w).flags = s.flags := rfl
@[simp] theorem State.acknowledge_errCmd (s : State) (w : Word) : (s.acknowledge w).errCmd = s.errCmd := rfl
@[simp] theorem State.acknowledge_cmdCnt (s : State) (w : Word) : (s.acknowledge w).cmdCnt = s.cmdCnt := rfl
@[simp] theorem State.acknowledge_pend (s : State) (w : Word) : (s.acknowledge w).pend = s.pend := rfl
@[simp] theorem State.acknowledge_wsel (s : State) (w : Word) : (s.acknowledge w).wsel = s.wsel := rfl
@[simp] theorem State.acknowledge_widx (s : State) (w : Word) : (s.acknowledge w).widx = s.widx := rfl
@[simp] theorem State.acknowledge_schedule (s : State) (w : Word) : (s.acknowledge w).schedule = s.schedule := rfl
@[simp] theorem State.acknowledge_answer (s : State) (w : Word) : (s.acknowledge w).answer = s.answer := rfl
@[simp] theorem State.acknowledge_draws (s : State) (w : Word) : (s.acknowledge w).draws = s.draws := rfl
@[simp] theorem State.acknowledge_drawsTaken (s : State) (w : Word) : (s.acknowledge w).drawsTaken = s.drawsTaken := rfl

/-! ### drop -/

@[simp] theorem State.drop_params (s : State) : s.drop.params = s.params := rfl
@[simp] theorem State.drop_regs (s : State) : s.drop.regs = s.regs := rfl
@[simp] theorem State.drop_ctrl (s : State) : s.drop.ctrl = s.ctrl := rfl
@[simp] theorem State.drop_status (s : State) : s.drop.status = { s.status with ovr := true } := rfl
@[simp] theorem State.drop_flags (s : State) : s.drop.flags = s.flags := rfl
@[simp] theorem State.drop_errCmd (s : State) : s.drop.errCmd = s.errCmd := rfl
@[simp] theorem State.drop_cmdCnt (s : State) : s.drop.cmdCnt = s.cmdCnt := rfl
@[simp] theorem State.drop_pend (s : State) : s.drop.pend = s.pend := rfl
@[simp] theorem State.drop_wsel (s : State) : s.drop.wsel = s.wsel := rfl
@[simp] theorem State.drop_widx (s : State) : s.drop.widx = s.widx := rfl
@[simp] theorem State.drop_schedule (s : State) : s.drop.schedule = s.schedule := rfl
@[simp] theorem State.drop_answer (s : State) : s.drop.answer = s.answer := rfl
@[simp] theorem State.drop_draws (s : State) : s.drop.draws = s.draws := rfl
@[simp] theorem State.drop_drawsTaken (s : State) : s.drop.drawsTaken = s.drawsTaken := rfl

/-! ### acknowledge: the status bits one by one -/

@[simp] theorem State.acknowledge_status_busy (s : State) (w : Word) : (s.acknowledge w).status.busy = s.status.busy := rfl
@[simp] theorem State.acknowledge_status_done (s : State) (w : Word) : (s.acknowledge w).status.done = (s.status.done && !(w.getLsbD 1)) := rfl
@[simp] theorem State.acknowledge_status_err (s : State) (w : Word) : (s.acknowledge w).status.err = (s.status.err && !(w.getLsbD 2)) := rfl
@[simp] theorem State.acknowledge_status_ovr (s : State) (w : Word) : (s.acknowledge w).status.ovr = (s.status.ovr && !(w.getLsbD 3)) := rfl
@[simp] theorem State.acknowledge_status_errCode (s : State) (w : Word) : (s.acknowledge w).status.errCode = if w.getLsbD 2 then 0#8 else s.status.errCode := rfl

/-! ### advance: only the window index -/

@[simp] theorem State.advance_params (s : State) : s.advance.params = s.params := by unfold State.advance; split <;> rfl
@[simp] theorem State.advance_regs (s : State) : s.advance.regs = s.regs := by unfold State.advance; split <;> rfl
@[simp] theorem State.advance_ctrl (s : State) : s.advance.ctrl = s.ctrl := by unfold State.advance; split <;> rfl
@[simp] theorem State.advance_status (s : State) : s.advance.status = s.status := by unfold State.advance; split <;> rfl
@[simp] theorem State.advance_flags (s : State) : s.advance.flags = s.flags := by unfold State.advance; split <;> rfl
@[simp] theorem State.advance_errCmd (s : State) : s.advance.errCmd = s.errCmd := by unfold State.advance; split <;> rfl
@[simp] theorem State.advance_cmdCnt (s : State) : s.advance.cmdCnt = s.cmdCnt := by unfold State.advance; split <;> rfl
@[simp] theorem State.advance_pend (s : State) : s.advance.pend = s.pend := by unfold State.advance; split <;> rfl
@[simp] theorem State.advance_wsel (s : State) : s.advance.wsel = s.wsel := by unfold State.advance; split <;> rfl
@[simp] theorem State.advance_schedule (s : State) : s.advance.schedule = s.schedule := by unfold State.advance; split <;> rfl
@[simp] theorem State.advance_answer (s : State) : s.advance.answer = s.answer := by unfold State.advance; split <;> rfl
@[simp] theorem State.advance_draws (s : State) : s.advance.draws = s.draws := by unfold State.advance; split <;> rfl
@[simp] theorem State.advance_drawsTaken (s : State) : s.advance.drawsTaken = s.drawsTaken := by unfold State.advance; split <;> rfl
theorem State.advance_widx (s : State) : s.advance.widx = if s.ctrl.ainc then s.widx + 1#16 else s.widx := by
  unfold State.advance; split <;> rfl

/-! ### softReset -/

@[simp] theorem State.softReset_params (s : State) : s.softReset.params = s.params := rfl
@[simp] theorem State.softReset_regs (s : State) : s.softReset.regs = Vector.replicate 16 0 := rfl
@[simp] theorem State.softReset_ctrl (s : State) : s.softReset.ctrl = ⟨false, false⟩ := rfl
@[simp] theorem State.softReset_status (s : State) : s.softReset.status = ⟨false, false, false, false, 0#8⟩ := rfl
@[simp] theorem State.softReset_flags (s : State) : s.softReset.flags = ⟨false, false, false, false, false⟩ := rfl
@[simp] theorem State.softReset_errCmd (s : State) : s.softReset.errCmd = 0#32 := rfl
@[simp] theorem State.softReset_cmdCnt (s : State) : s.softReset.cmdCnt = 0#32 := rfl
@[simp] theorem State.softReset_pend (s : State) : s.softReset.pend = 0#32 := rfl
@[simp] theorem State.softReset_wsel (s : State) : s.softReset.wsel = 0 := rfl
@[simp] theorem State.softReset_widx (s : State) : s.softReset.widx = 0#16 := rfl
@[simp] theorem State.softReset_schedule (s : State) : s.softReset.schedule = s.schedule := rfl
@[simp] theorem State.softReset_answer (s : State) : s.softReset.answer = none := rfl
@[simp] theorem State.softReset_draws (s : State) : s.softReset.draws = s.draws := rfl
@[simp] theorem State.softReset_drawsTaken (s : State) : s.softReset.drawsTaken = s.drawsTaken := rfl

end Sys2Proof.Machine
end

