-- ==== Sys2Proof/Laws/Ops.lean ====
section
/-! SUPPORT. What the shared operations do: reading a register after each update, the two ways a command completes, and what one turn can be. -/

namespace Sys2Proof.Machine

/-! ### Register reads after an update -/

theorem State.reg_setReg (s : State) (r q : Reg) (v : Nat) : (s.setReg r v).reg q = if r = q then v else s.reg q := by
  simp only [State.reg, State.setReg, Fin.getElem_fin, Vector.getElem_set, Fin.ext_iff]

@[simp] theorem State.reg_setReg_self (s : State) (r : Reg) (v : Nat) : (s.setReg r v).reg r = v := by
  rw [State.reg_setReg, if_pos rfl]

theorem State.reg_setReg_of_ne (s : State) {r q : Reg} (v : Nat) (h : r ≠ q) : (s.setReg r v).reg q = s.reg q := by
  rw [State.reg_setReg, if_neg h]

/-- The registers decide every register read. -/
theorem State.reg_congr {s t : State} (h : t.regs = s.regs) (q : Reg) : t.reg q = s.reg q := by
  unfold State.reg; rw [h]

@[simp] theorem State.reg_setZ (s : State) (v : Nat) (q : Reg) : (s.setZ v).reg q = s.reg q := rfl
@[simp] theorem State.reg_setB (s : State) (b : Bool) (q : Reg) : (s.setB b).reg q = s.reg q := rfl
@[simp] theorem State.reg_setOrder (s : State) (o : Ordering) (q : Reg) : (s.setOrder o).reg q = s.reg q := rfl
@[simp] theorem State.reg_finish (s : State) (q : Reg) : s.finish.reg q = s.reg q := rfl
@[simp] theorem State.reg_raiseFault (s : State) (f : FaultCode) (q : Reg) : (s.raiseFault f).reg q = s.reg q := rfl
@[simp] theorem State.reg_acknowledge (s : State) (w : Word) (q : Reg) : (s.acknowledge w).reg q = s.reg q := rfl
@[simp] theorem State.reg_drop (s : State) (q : Reg) : s.drop.reg q = s.reg q := rfl
@[simp] theorem State.reg_advance (s : State) (q : Reg) : s.advance.reg q = s.reg q := State.reg_congr (by simp) q

@[simp] theorem State.reg_softReset (s : State) (q : Reg) : s.softReset.reg q = 0 := by
  simp [State.reg]

theorem State.reg_resetWith (p : Params) (q : Reg) : (State.resetWith p).reg q = 0 := by
  simp [State.reg, State.resetWith]

theorem State.cap_congr {s t : State} (h : t.params = s.params) : t.cap = s.cap := by
  unfold State.cap; rw [h]

theorem State.capBits_congr {s t : State} (h : t.params = s.params) : t.capBits = s.capBits := by
  unfold State.capBits; rw [h]

theorem State.cap_eq_two_pow (s : State) : s.cap = 2 ^ s.capBits := by
  unfold State.cap State.capBits
  rw [pow_mul]; norm_num

/-- A register of a legal machine holds every 16-bit immediate. -/
theorem State.uimm_lt_cap {s : State} (h : s.params.legal) (imm : BitVec 16) : uimm imm < s.cap := by
  have h1 : uimm imm < 65536 := imm.isLt
  have h2 : (65536 : Nat) ^ 1 ≤ 65536 ^ s.params.maxSeg := Nat.pow_le_pow_right (by norm_num) (by have := h.1; omega)
  unfold State.cap; omega

/-! ### The completions -/

/-- A value-producing completion that fits its register. -/
theorem State.produceChecked_of_lt {s : State} {v : Nat} (rd : Reg) (h : v < s.cap) :
    s.produceChecked rd v = s.produce rd v := by
  unfold State.produceChecked; rw [if_neg (by omega)]

/-- A value-producing completion that does not fit. -/
theorem State.produceChecked_of_le {s : State} {v : Nat} (rd : Reg) (h : s.cap ≤ v) :
    s.produceChecked rd v = s.raiseFault .capacity := by
  unfold State.produceChecked; rw [if_pos h]

theorem State.produce_reg (s : State) (rd q : Reg) (v : Nat) :
    (s.produce rd v).reg q = if rd = q then v else s.reg q := by
  unfold State.produce; rw [State.reg_finish, State.reg_setZ, State.reg_setReg]

theorem State.produce_flags (s : State) (rd : Reg) (v : Nat) :
    (s.produce rd v).flags = { s.flags with z := decide (v = 0) } := rfl

theorem State.produce_status (s : State) (rd : Reg) (v : Nat) :
    (s.produce rd v).status = { s.status with busy := false, done := true } := rfl

theorem State.answerB_regs (s : State) (b : Bool) : (s.answerB b).regs = s.regs := rfl

theorem State.answerB_flags (s : State) (b : Bool) : (s.answerB b).flags = { s.flags with b := b } := rfl

/-- A shift's completion, by the shifter's answer. -/
theorem State.shifted_some (s : State) (rd : Reg) (v : Nat) : s.shifted rd (some v) = s.produce rd v := rfl

theorem State.shifted_none (s : State) (rd : Reg) : s.shifted rd none = s.raiseFault .capacity := rfl

/-! ### Shift counts -/

theorem shiftLeftSigned_of_nonneg (capBits a : Nat) {k : Int} (h : 0 ≤ k) :
    shiftLeftSigned capBits a k = shiftLeft capBits a k.natAbs := by
  unfold shiftLeftSigned signedCount; rw [decide_eq_true h]

theorem shiftLeftSigned_of_neg (capBits a : Nat) {k : Int} (h : k < 0) :
    shiftLeftSigned capBits a k = some (shiftRight a k.natAbs) := by
  unfold shiftLeftSigned signedCount; rw [decide_eq_false (by omega)]

theorem shiftRightSigned_of_nonneg (capBits a : Nat) {k : Int} (h : 0 ≤ k) :
    shiftRightSigned capBits a k = some (shiftRight a k.natAbs) := by
  unfold shiftRightSigned signedCount; rw [decide_eq_true h]

theorem shiftRightSigned_of_neg (capBits a : Nat) {k : Int} (h : k < 0) :
    shiftRightSigned capBits a k = shiftLeft capBits a k.natAbs := by
  unfold shiftRightSigned signedCount; rw [decide_eq_false (by omega)]

/-! ### The window -/

/-- A host read changes no BigNum register. -/
theorem State.readReg_regs (s : State) (r : WinReg) : (s.readReg r).2.regs = s.regs := by
  cases r <;> simp only [State.readReg, State.readIdle] <;> (try split) <;> simp

/-- A host read changes at most OVR, the window index and what was read last. -/
theorem State.readReg_state (s : State) (r : WinReg) :
    (s.readReg r).2 = s ∨ (s.readReg r).2 = s.drop ∨ (s.readReg r).2 = s.advance := by
  cases r <;> simp only [State.readReg, State.readIdle] <;> (try split) <;> simp

/-- Replacing a segment changes that segment alone (R41, R22). -/
theorem replaceSeg_lt {v n i w : Nat} (hv : v < 65536 ^ n) (hi : i < n) (hw : w < 65536) : replaceSeg v i w < 65536 ^ n := by
  have hp : 0 < (65536 : Nat) ^ i := by positivity
  have h1 := Nat.div_add_mod v (65536 ^ (i + 1))
  have h2 := mod_pow_succ v i
  have h3 : v % 65536 ^ i < 65536 ^ i := Nat.mod_lt _ hp
  have h4 : v / 65536 ^ (i + 1) < 65536 ^ (n - (i + 1)) := by
    rw [Nat.div_lt_iff_lt_mul (by positivity), ← pow_add, show n - (i + 1) + (i + 1) = n by omega]; exact hv
  have h5 : (w + 1) * 65536 ^ i ≤ 65536 * 65536 ^ i := Nat.mul_le_mul_right _ (by omega)
  have h6 : 65536 ^ (i + 1) * (v / 65536 ^ (i + 1) + 1) ≤ 65536 ^ n := by
    rw [show (65536 : Nat) ^ n = 65536 ^ (i + 1) * 65536 ^ (n - (i + 1)) by rw [← pow_add]; congr 1; omega]
    exact Nat.mul_le_mul_left _ h4
  have h7 : (65536 : Nat) ^ (i + 1) = 65536 * 65536 ^ i := by rw [pow_succ, mul_comm]
  unfold replaceSeg
  rw [mul_add, mul_one] at h6
  rw [add_mul, one_mul] at h5
  omega

/-! ### Turns -/

/-- The engine's turn. -/
theorem step_engine {s : State} (h : s.schedule = []) : step s = engineTurn s := by
  unfold step takeTurn; rw [h]

theorem step_engine_scheduled {s : State} {rest : List Turn} (h : s.schedule = .engine :: rest) :
    step s = engineTurn { s with schedule := rest } := by
  unfold step takeTurn; rw [h]

/-- A host turn. -/
theorem step_host {s : State} {a : HostAccess} {rest : List Turn} (h : s.schedule = .host a :: rest) :
    step s = .next (State.access { s with schedule := rest } a) := by
  unfold step takeTurn; rw [h]

/-- A pending word that decodes is completed as that command (R301). -/
theorem engineTurn_of_decode {s : State} {i : Instr} (hb : s.status.busy = true) (h : decodeWord s.pend = .ok i) :
    engineTurn s = exec i s := by
  unfold engineTurn complete; rw [if_pos hb, h]

/-- A pending word that does not decode is the fault ILLEGAL (R110 to R112). -/
theorem engineTurn_of_error {s : State} {e : DecodeError} (hb : s.status.busy = true) (h : decodeWord s.pend = .error e) :
    engineTurn s = .next (s.raiseFault .illegal) := by
  unfold engineTurn complete; rw [if_pos hb, h]

/-- An idle engine keeps its state (R318). -/
theorem engineTurn_idle {s : State} (hb : s.status.busy = false) : engineTurn s = .next s := by
  unfold engineTurn; rw [hb]; rfl

end Sys2Proof.Machine
end

