-- ==== Sys2Proof/Laws/PerInstr.lean ====
section
/-! SUPPORT. The family InRow: a command's word belongs to its row of the opcode table, one lemma per constructor. -/

namespace Sys2Proof.Laws

/-- The encoded word of a command selects the command's row of R109, whatever its operands. -/
def InRow.Statement (i : Instr) : Prop := i.row.selects (encode i) = true

theorem InRow.of_bits {i : Instr}
    (h : ∀ k, k < 32 → (encode i &&& i.row.mask).getLsbD k = i.row.pattern.getLsbD k) : InRow.Statement i := by
  unfold InRow.Statement Row.selects
  rw [beq_iff_eq]
  exact BitVec.eq_of_getLsbD_eq (fun k hk => h k hk)

theorem InRow.nop : InRow.Statement (.nop) := by
  apply InRow.of_bits; intro k hk; rw [encode, BitVec.getLsbD_and, getLsbD_packRegs]; interval_cases k <;> simp [Instr.row]

theorem InRow.clr (rd : Reg) : InRow.Statement (.clr rd) := by
  apply InRow.of_bits; intro k hk; rw [encode, BitVec.getLsbD_and, getLsbD_packRegs]; interval_cases k <;> simp [Instr.row]

theorem InRow.ldi (rd : Reg) (imm : BitVec 16) : InRow.Statement (.ldi rd imm) := by
  apply InRow.of_bits; intro k hk; rw [encode, BitVec.getLsbD_and, getLsbD_packImm]; interval_cases k <;> simp [Instr.row]

theorem InRow.mov (rd rs1 : Reg) : InRow.Statement (.mov rd rs1) := by
  apply InRow.of_bits; intro k hk; rw [encode, BitVec.getLsbD_and, getLsbD_packRegs]; interval_cases k <;> simp [Instr.row]

theorem InRow.add (rd rs1 rs2 : Reg) : InRow.Statement (.add rd rs1 rs2) := by
  apply InRow.of_bits; intro k hk; rw [encode, BitVec.getLsbD_and, getLsbD_packRegs]; interval_cases k <;> simp [Instr.row]

theorem InRow.sub (rd rs1 rs2 : Reg) : InRow.Statement (.sub rd rs1 rs2) := by
  apply InRow.of_bits; intro k hk; rw [encode, BitVec.getLsbD_and, getLsbD_packRegs]; interval_cases k <;> simp [Instr.row]

theorem InRow.mul (rd rs1 rs2 : Reg) : InRow.Statement (.mul rd rs1 rs2) := by
  apply InRow.of_bits; intro k hk; rw [encode, BitVec.getLsbD_and, getLsbD_packRegs]; interval_cases k <;> simp [Instr.row]

theorem InRow.muli (rd rs1 : Reg) (imm : BitVec 16) : InRow.Statement (.muli rd rs1 imm) := by
  apply InRow.of_bits; intro k hk; rw [encode, BitVec.getLsbD_and, getLsbD_packImm]; interval_cases k <;> simp [Instr.row]

theorem InRow.mulmod (rd rs1 rs2 rs3 : Reg) : InRow.Statement (.mulmod rd rs1 rs2 rs3) := by
  apply InRow.of_bits; intro k hk; rw [encode, BitVec.getLsbD_and, getLsbD_packRegs]; interval_cases k <;> simp [Instr.row]

theorem InRow.div (rd rs1 rs2 : Reg) : InRow.Statement (.div rd rs1 rs2) := by
  apply InRow.of_bits; intro k hk; rw [encode, BitVec.getLsbD_and, getLsbD_packRegs]; interval_cases k <;> simp [Instr.row]

theorem InRow.mod (rd rs1 rs2 : Reg) : InRow.Statement (.mod rd rs1 rs2) := by
  apply InRow.of_bits; intro k hk; rw [encode, BitVec.getLsbD_and, getLsbD_packRegs]; interval_cases k <;> simp [Instr.row]

theorem InRow.divmod (rd rr rs1 rs2 : Reg) : InRow.Statement (.divmod rd rr rs1 rs2) := by
  apply InRow.of_bits; intro k hk; rw [encode, BitVec.getLsbD_and, getLsbD_packRegs]; interval_cases k <;> simp [Instr.row]

theorem InRow.shl (rd rs1 : Reg) (imm : BitVec 16) : InRow.Statement (.shl rd rs1 imm) := by
  apply InRow.of_bits; intro k hk; rw [encode, BitVec.getLsbD_and, getLsbD_packImm]; interval_cases k <;> simp [Instr.row]

theorem InRow.shr (rd rs1 : Reg) (imm : BitVec 16) : InRow.Statement (.shr rd rs1 imm) := by
  apply InRow.of_bits; intro k hk; rw [encode, BitVec.getLsbD_and, getLsbD_packImm]; interval_cases k <;> simp [Instr.row]

theorem InRow.shlv (rd rs1 rs2 : Reg) : InRow.Statement (.shlv rd rs1 rs2) := by
  apply InRow.of_bits; intro k hk; rw [encode, BitVec.getLsbD_and, getLsbD_packRegs]; interval_cases k <;> simp [Instr.row]

theorem InRow.shrv (rd rs1 rs2 : Reg) : InRow.Statement (.shrv rd rs1 rs2) := by
  apply InRow.of_bits; intro k hk; rw [encode, BitVec.getLsbD_and, getLsbD_packRegs]; interval_cases k <;> simp [Instr.row]

theorem InRow.testbit (rs1 : Reg) (imm : BitVec 16) : InRow.Statement (.testbit rs1 imm) := by
  apply InRow.of_bits; intro k hk; rw [encode, BitVec.getLsbD_and, getLsbD_packImm]; interval_cases k <;> simp [Instr.row]

theorem InRow.setbit (rd rs1 : Reg) (imm : BitVec 16) : InRow.Statement (.setbit rd rs1 imm) := by
  apply InRow.of_bits; intro k hk; rw [encode, BitVec.getLsbD_and, getLsbD_packImm]; interval_cases k <;> simp [Instr.row]

theorem InRow.bitlen (rd rs1 : Reg) : InRow.Statement (.bitlen rd rs1) := by
  apply InRow.of_bits; intro k hk; rw [encode, BitVec.getLsbD_and, getLsbD_packRegs]; interval_cases k <;> simp [Instr.row]

theorem InRow.cmp (rs1 rs2 : Reg) : InRow.Statement (.cmp rs1 rs2) := by
  apply InRow.of_bits; intro k hk; rw [encode, BitVec.getLsbD_and, getLsbD_packRegs]; interval_cases k <;> simp [Instr.row]

theorem InRow.expmod (rd rs1 rs2 rs3 : Reg) : InRow.Statement (.expmod rd rs1 rs2 rs3) := by
  apply InRow.of_bits; intro k hk; rw [encode, BitVec.getLsbD_and, getLsbD_packRegs]; interval_cases k <;> simp [Instr.row]

theorem InRow.egcd (rd rx ry rs1 rs2 : Reg) : InRow.Statement (.egcd rd rx ry rs1 rs2) := by
  apply InRow.of_bits; intro k hk; rw [encode, BitVec.getLsbD_and, getLsbD_packRegs]; interval_cases k <;> simp [Instr.row]

theorem InRow.modinv (rd rs1 rs2 : Reg) : InRow.Statement (.modinv rd rs1 rs2) := by
  apply InRow.of_bits; intro k hk; rw [encode, BitVec.getLsbD_and, getLsbD_packRegs]; interval_cases k <;> simp [Instr.row]

theorem InRow.mrw (rs1 rs2 : Reg) : InRow.Statement (.mrw rs1 rs2) := by
  apply InRow.of_bits; intro k hk; rw [encode, BitVec.getLsbD_and, getLsbD_packRegs]; interval_cases k <;> simp [Instr.row]

theorem InRow.mrtest (rs1 : Reg) (imm : BitVec 16) : InRow.Statement (.mrtest rs1 imm) := by
  apply InRow.of_bits; intro k hk; rw [encode, BitVec.getLsbD_and, getLsbD_packImm]; interval_cases k <;> simp [Instr.row]

end Sys2Proof.Laws
end

