-- ==== Sys2Proof/Laws/Step.lean ====
section
/-! SUPPORT. What one completion, one access and one step can do: the case analyses every statement about a step starts from. -/

namespace Sys2Proof.Machine

/-- How a completion of `i` without a fault may leave `s`: only destinations, flags, BUSY and DONE and (for MRTEST) the draws have
changed, registers stay below CAP on a legal machine, and at most one of LT, EQ, GT is 1. -/
def CompletesTo (i : Instr) (s t : State) : Prop :=
  (∀ q, q ∉ i.destinations → t.reg q = s.reg q) ∧
  t = { s with
    regs := t.regs, flags := t.flags, status := { s.status with busy := false, done := true }
    draws := t.draws, drawsTaken := t.drawsTaken } ∧
  ((∀ rs1 imm, i ≠ .mrtest rs1 imm) → t.draws = s.draws ∧ t.drawsTaken = s.drawsTaken) ∧
  (s.params.legal → s.RegsBounded → t.RegsBounded) ∧ (s.flags.OrderExclusive → t.flags.OrderExclusive)

/-- The two ways a completion of `i` ends: a fault, or `CompletesTo`. -/
def CompletionOf (i : Instr) (s : State) (r : Result) : Prop :=
  (∃ f, r = .next (s.raiseFault f)) ∨ ∃ t, r = .next t ∧ CompletesTo i s t

/-- A value-producing completion of a value below CAP. -/
theorem completesTo_produce {i : Instr} {s : State} {rd : Reg} {v : Nat} (h : rd ∈ i.destinations) (hv : s.params.legal → s.RegsBounded → v < s.cap) :
    CompletesTo i s (s.produce rd v) := by
  refine ⟨fun q hq => ?_, rfl, fun _ => ⟨rfl, rfl⟩, fun hl hb q => ?_, fun h => h⟩
  · rw [State.produce_reg, if_neg (by rintro rfl; exact hq h)]
  · rw [State.produce_reg]
    have : (s.produce rd v).cap = s.cap := rfl
    rw [this]
    split
    · exact hv hl hb
    · exact hb q

/-- A completion whose result is one boolean. -/
theorem completesTo_answerB {i : Instr} {s : State} {b : Bool} :
    CompletesTo i s (s.answerB b) :=
  ⟨fun _ _ => rfl, rfl, fun _ => ⟨rfl, rfl⟩, fun _ hb q => hb q, fun h => h⟩

/-- A value-producing completion with its capacity check. -/
theorem completionOf_produceChecked {i : Instr} {s : State} {rd : Reg} {v : Nat} (h : rd ∈ i.destinations) :
    CompletionOf i s (.next (s.produceChecked rd v)) := by
  unfold State.produceChecked
  split
  · exact Or.inl ⟨_, rfl⟩
  · next hc => exact Or.inr ⟨_, rfl, completesTo_produce h (fun _ _ => by omega)⟩

/-- A shift's completion. -/
theorem completionOf_shifted {i : Instr} {s : State} {rd : Reg} {o : Option Nat} (h : rd ∈ i.destinations) (hv : ∀ v, o = some v → s.RegsBounded → v < s.cap) :
    CompletionOf i s (.next (s.shifted rd o)) := by
  cases o with
  | none => exact Or.inl ⟨_, rfl⟩
  | some v => exact Or.inr ⟨_, rfl, completesTo_produce h (fun _ hb => hv v rfl hb)⟩

theorem mul_two_pow_lt_cap {s : State} {a k : Nat} (h : bitlen a + k ≤ s.capBits) : a * 2 ^ k < s.cap := by
  rw [State.cap_eq_two_pow]
  calc a * 2 ^ k < 2 ^ bitlen a * 2 ^ k := Nat.mul_lt_mul_of_pos_right (lt_two_pow_bitlen a) (by positivity)
    _ = 2 ^ (bitlen a + k) := by rw [pow_add]
    _ ≤ _ := Nat.pow_le_pow_right (by norm_num) h

theorem shiftLeft_lt_cap {s : State} {a k v : Nat} (h : shiftLeft s.capBits a k = some v) : v < s.cap := by
  rw [shiftLeft_eq] at h
  split at h
  · cases h
  · next hc =>
    cases h
    by_cases h0 : a = 0
    · subst h0; simp [State.cap]
    · exact mul_two_pow_lt_cap (by by_contra hh; exact hc ⟨h0, by omega⟩)

theorem shiftRight_lt_cap {s : State} {a k : Nat} (h : a < s.cap) : shiftRight a k < s.cap := by
  rw [shiftRight_eq]; exact lt_of_le_of_lt (Nat.div_le_self _ _) h

theorem bitLength_lt_cap {s : State} {a : Nat} (h : a < s.cap) : bitLength a < s.cap := by
  rw [bitLength_eq]
  rw [State.cap_eq_two_pow] at h ⊢
  have := (bitlen_le_iff _ _).mpr h
  exact lt_of_le_of_lt this Nat.lt_two_pow_self

/-- Everything a completion can do (R301, R303). -/
theorem exec_cases (i : Instr) (s : State) : CompletionOf i s (exec i s) := by
  cases i with
  | nop => exact Or.inr ⟨_, rfl, fun q hq => rfl, rfl, fun _ => ⟨rfl, rfl⟩, fun hl hb q => hb q, fun h => h⟩
  | clr rd => exact Or.inr ⟨_, rfl, completesTo_produce (by simp [Instr.destinations]) (fun _ _ => by simp [State.cap])⟩
  | ldi rd imm => exact Or.inr ⟨_, rfl, completesTo_produce (by simp [Instr.destinations]) (fun h _ => State.uimm_lt_cap h imm)⟩
  | mov rd rs1 => exact Or.inr ⟨_, rfl, completesTo_produce (by simp [Instr.destinations]) (fun _ h => h _)⟩
  | add rd rs1 rs2 => exact completionOf_produceChecked (by simp [Instr.destinations])
  | sub rd rs1 rs2 =>
    simp only [exec, execSub]
    rw [subChain_eq]
    split
    · exact Or.inl ⟨_, rfl⟩
    · next r h =>
      split at h
      · cases h
      · cases h; exact Or.inr ⟨_, rfl, completesTo_produce (by simp [Instr.destinations]) (fun _ h => lt_of_le_of_lt (Nat.sub_le _ _) (h _))⟩
  | mul rd rs1 rs2 => exact completionOf_produceChecked (by simp [Instr.destinations])
  | muli rd rs1 imm => exact completionOf_produceChecked (by simp [Instr.destinations])
  | mulmod rd rs1 rs2 rs3 =>
    simp only [exec, execMulmod]
    split
    · exact Or.inl ⟨_, rfl⟩
    · next h => exact Or.inr ⟨_, rfl, completesTo_produce (by simp [Instr.destinations]) (fun _ hb => by rw [mulMod_eq _ _ _ (by omega)]; exact lt_trans (Nat.mod_lt _ (by omega)) (hb rs3))⟩
  | div rd rs1 rs2 =>
    simp only [exec, execDiv]
    split
    · exact Or.inl ⟨_, rfl⟩
    · next h => exact Or.inr ⟨_, rfl, completesTo_produce (by simp [Instr.destinations]) (fun _ hb => by rw [longDivide_eq _ _ (by omega)]; exact lt_of_le_of_lt (Nat.div_le_self _ _) (hb rs1))⟩
  | mod rd rs1 rs2 =>
    simp only [exec, execMod]
    split
    · exact Or.inl ⟨_, rfl⟩
    · next h => exact Or.inr ⟨_, rfl, completesTo_produce (by simp [Instr.destinations]) (fun _ hb => by rw [longDivide_eq _ _ (by omega)]; exact lt_trans (Nat.mod_lt _ (by omega)) (hb rs2))⟩
  | divmod rd rr rs1 rs2 =>
    simp only [exec, execDivmod]
    split
    · exact Or.inl ⟨_, rfl⟩
    · next h =>
      rw [longDivide_eq _ _ (by omega)]
      refine Or.inr ⟨_, rfl, fun q hq => ?_, rfl, fun _ => ⟨rfl, rfl⟩, fun hl hb q => ?_, fun h => h⟩
      · simp [Instr.destinations] at hq
        rw [State.reg_finish, State.reg_setZ, State.reg_setReg, State.reg_setReg, if_neg (Ne.symm hq.2), if_neg (Ne.symm hq.1)]
      · rw [State.reg_finish, State.reg_setZ, State.reg_setReg, State.reg_setReg]
        show _ < s.cap
        have := lt_of_le_of_lt (Nat.div_le_self (s.reg rs1) (s.reg rs2)) (hb rs1)
        have := lt_trans (Nat.mod_lt (s.reg rs1) (show s.reg rs2 > 0 by omega)) (hb rs2)
        have := hb q
        split_ifs <;> assumption
  | shl rd rs1 imm =>
    refine completionOf_shifted (by simp [Instr.destinations]) (fun v hv hb => ?_)
    by_cases h0 : 0 ≤ simm imm
    · rw [shiftLeftSigned_of_nonneg _ _ h0] at hv; exact shiftLeft_lt_cap hv
    · rw [shiftLeftSigned_of_neg _ _ (by omega)] at hv; cases hv; exact shiftRight_lt_cap (hb _)
  | shr rd rs1 imm =>
    refine completionOf_shifted (by simp [Instr.destinations]) (fun v hv hb => ?_)
    by_cases h0 : 0 ≤ simm imm
    · rw [shiftRightSigned_of_nonneg _ _ h0] at hv; cases hv; exact shiftRight_lt_cap (hb _)
    · rw [shiftRightSigned_of_neg _ _ (by omega)] at hv; exact shiftLeft_lt_cap hv
  | shlv rd rs1 rs2 => exact completionOf_shifted (by simp [Instr.destinations]) (fun v hv hb => shiftLeft_lt_cap hv)
  | shrv rd rs1 rs2 => exact Or.inr ⟨_, rfl, completesTo_produce (by simp [Instr.destinations]) (fun _ hb => shiftRight_lt_cap (hb _))⟩
  | testbit rs1 imm => exact Or.inr ⟨_, rfl, completesTo_answerB⟩
  | setbit rd rs1 imm =>
    simp only [exec, execSetbit]
    split
    · exact Or.inl ⟨_, rfl⟩
    · next h => exact Or.inr ⟨_, rfl, completesTo_produce (by simp [Instr.destinations]) (fun _ hb => by
        have := hb rs1
        rw [State.cap_eq_two_pow] at this ⊢
        rw [Nat.one_shiftLeft]
        exact Nat.or_lt_two_pow this (Nat.pow_lt_pow_right (by norm_num) (by omega)))⟩
  | bitlen rd rs1 => exact Or.inr ⟨_, rfl, completesTo_produce (by simp [Instr.destinations]) (fun _ hb => bitLength_lt_cap (hb _))⟩
  | cmp rs1 rs2 =>
    refine Or.inr ⟨_, rfl, fun q hq => rfl, rfl, fun _ => ⟨rfl, rfl⟩, fun hl hb q => hb q, fun _ => ?_⟩
    simp only [State.finish_flags, State.setOrder_flags]
    cases compareSegs (s.reg rs1) (s.reg rs2) <;> simp [Flags.OrderExclusive]
  | expmod rd rs1 rs2 rs3 =>
    simp only [exec, execExpmod]
    split
    · exact Or.inl ⟨_, rfl⟩
    · next h => exact Or.inr ⟨_, rfl, completesTo_produce (by simp [Instr.destinations]) (fun _ hb => by rw [expMod_eq _ _ _ (by omega)]; exact lt_trans (Nat.mod_lt _ (by omega)) (hb rs3))⟩
  | egcd rd rx ry rs1 rs2 =>
    simp only [exec, execEgcd]
    split
    · exact Or.inl ⟨_, rfl⟩
    · next h0 =>
      split
      · exact Or.inl ⟨_, rfl⟩
      · next h =>
        refine Or.inr ⟨_, rfl, fun q hq => ?_, rfl, fun _ => ⟨rfl, rfl⟩, fun hl hb q => ?_, fun h => h⟩
        · simp [Instr.destinations] at hq
          rw [State.reg_finish, State.reg_setZ, State.reg_setReg, State.reg_setReg, State.reg_setReg, if_neg (Ne.symm hq.2.2), if_neg (Ne.symm hq.2.1), if_neg (Ne.symm hq.1)]
        · rw [State.reg_finish, State.reg_setZ, State.reg_setReg, State.reg_setReg, State.reg_setReg]
          show _ < s.cap
          have hg := (extendedEuclid_spec (s.reg rs1) (s.reg rs2) (by omega)).1
          have hg2 : (extendedEuclid (s.reg rs1) (s.reg rs2)).1 < s.cap := by
            rw [hg]
            by_cases h1 : s.reg rs1 = 0
            · rw [h1, Nat.gcd_zero_left]; exact hb _
            · exact lt_of_le_of_lt (Nat.gcd_le_left _ (by omega)) (hb rs1)
          have := hb q
          split_ifs <;> omega
  | modinv rd rs1 rs2 =>
    simp only [exec, execModinv]
    split
    · exact Or.inl ⟨_, rfl⟩
    · next h =>
      rcases modInverse_spec (s.reg rs1) (s.reg rs2) (by omega) with ⟨h1, h2⟩ | ⟨r, h1, h2, h3, h4⟩
      · rw [h1]; exact Or.inr ⟨_, rfl, completesTo_answerB⟩
      · rw [h1]
        refine Or.inr ⟨_, rfl, fun q hq => ?_, rfl, fun _ => ⟨rfl, rfl⟩, fun hl hb q => ?_, fun h => h⟩
        · simp [Instr.destinations] at hq
          rw [State.produce_reg, if_neg (Ne.symm hq)]; rfl
        · rw [State.produce_reg]
          have := hb q
          have := hb rs2
          show _ < s.cap
          split
          · omega
          · assumption
  | mrw rs1 rs2 =>
    simp only [exec, execMrw]
    split
    · exact Or.inl ⟨_, rfl⟩
    · exact Or.inr ⟨_, rfl, completesTo_answerB⟩
  | mrtest rs1 imm =>
    simp only [exec, execMrtest]
    split
    · exact Or.inl ⟨_, rfl⟩
    · obtain ⟨ds, dt, h⟩ : ∃ ds dt, (testRounds (s.reg rs1) (uimm imm) s).2 = { s with draws := ds, drawsTaken := dt } := by
        obtain ⟨k, -, h⟩ := testRounds_state (s.reg rs1) (uimm imm) s
        exact ⟨_, _, h⟩
      refine Or.inr ⟨_, rfl, ?_⟩
      rw [h]
      exact ⟨fun q hq => rfl, rfl, fun hh => absurd rfl (hh rs1 imm), fun hl hb q => hb q, fun h => h⟩

/-- Everything the engine's turn can do. -/
theorem engineTurn_cases (s : State) :
    (s.status.busy = false ∧ engineTurn s = .next s) ∨
    (s.status.busy = true ∧ ∃ f, engineTurn s = .next (s.raiseFault f)) ∨
    (s.status.busy = true ∧ ∃ i t, decodeWord s.pend = .ok i ∧ engineTurn s = .next t ∧ CompletesTo i s t) := by
  cases hb : s.status.busy with
  | false => exact Or.inl ⟨rfl, engineTurn_idle hb⟩
  | true =>
    right
    rcases hd : decodeWord s.pend with e | i
    · exact Or.inl ⟨rfl, _, engineTurn_of_error hb hd⟩
    · rw [engineTurn_of_decode hb hd]
      rcases exec_cases i s with ⟨f, h⟩ | ⟨t, h, hc⟩
      · exact Or.inl ⟨rfl, f, h⟩
      · exact Or.inr ⟨rfl, i, t, rfl, h, hc⟩

/-- The codes of R300 lie in 1 to 5. -/
theorem FaultCode.code_range (f : FaultCode) : 1 ≤ f.code.toNat ∧ f.code.toNat ≤ 5 := by cases f <;> decide

/-- A value-producing completion in the terms claims use. -/
theorem completed_produce (s : State) (rd : Reg) (v : Nat) :
    s.Completed (s.produce rd v) (s.withReg rd v) (s.withZ v) := by
  refine ⟨fun q => ?_, rfl⟩
  rw [State.produce_reg]; unfold State.withReg
  by_cases h : rd = q
  · simp [h]
  · rw [if_neg h, if_neg (Ne.symm h)]

/-! ### Host accesses -/

/-- A 32-bit read in the window. -/
theorem State.hostRead_eq (s : State) {o : Nat} (h : o ≤ 0xFFF) (h4 : o % 4 = 0) :
    s.hostRead o = { (s.readReg (winRegAt o)).2 with answer := some ((s.readReg (winRegAt o)).1.setWidth 64) } := by
  unfold State.hostRead State.access
  simp only
  rw [if_pos (by simp [State.inWindow, Config.windowBytes]; omega), if_pos (by simp [wholeWord, h4])]
  simp

/-- A 32-bit write in the window. -/
theorem State.hostWrite_eq (s : State) {o : Nat} (w : Word) (h : o ≤ 0xFFF) (h4 : o % 4 = 0) :
    s.hostWrite o w = { s.writeReg (winRegAt o) w with answer := none } := by
  unfold State.hostWrite State.access
  simp only
  rw [if_pos (by simp [State.inWindow, Config.windowBytes]; omega), if_pos (by simp [wholeWord, h4])]
  simp

/-- From 0x034 on every word of the window is reserved (R44). -/
theorem winRegAt_reserved {o : Nat} (h : 0x034 ≤ o) : winRegAt o = .reserved := by
  unfold winRegAt; split <;> first | omega | rfl

/-- Writing a register changes no turn to come. -/
theorem State.writeReg_schedule (s : State) (r : WinReg) (w : Word) : (s.writeReg r w).schedule = s.schedule := by
  cases r <;> simp only [State.writeReg, State.writeCtrl, State.submit, State.writeData] <;> (repeat' split) <;> simp

/-- A host access changes no turn to come. -/
theorem State.access_schedule (s : State) (a : HostAccess) : (s.access a).schedule = s.schedule := by
  have hr : ∀ r, (s.readReg r).2.schedule = s.schedule := fun r => by
    rcases s.readReg_state r with h | h | h <;> rw [h] <;> simp
  cases a <;> simp only [State.access] <;> (repeat' split) <;> simp [State.writeReg_schedule, hr]

/-! ### Runs -/

/-- One step of a run. -/
theorem core_run_succ (k : Nat) {s t : State} (h : step s = .next t) :
    Sys2Proof.core.run (k + 1) s = Sys2Proof.core.run k t := by
  have general : ∀ (M : Host.Core) (u v : M.State), M.step u = .next v → M.run (k + 1) u = M.run k v := by
    intro M u v hu; simp only [Host.Core.run, hu]
  exact general Sys2Proof.core s t h

end Sys2Proof.Machine
end

