-- ==== Sys2Proof/Tests/Slice0.lean ====
section
/-! SUPPORT. The model's own tests: ill-formed commands refused, words of the spec decoded, one step per test on the spec's vectors (spec/95_test_vectors.md), host accesses of its scenarios, and a witness for the hypotheses of every statement that has some. -/

namespace Sys2Proof.Tests

set_option Elab.async false

open Sys2Proof.Machine

/-! ### Well-formed commands (R112) -/

theorem test_wellFormed_refuses_equal_divmod : ¬(Instr.divmod 2 2 0 1).WellFormed := by decide
theorem test_wellFormed_refuses_egcd_rd_rx : ¬(Instr.egcd 4 4 6 0 1).WellFormed := by decide
theorem test_wellFormed_refuses_egcd_rx_ry : ¬(Instr.egcd 4 5 5 0 1).WellFormed := by decide
theorem test_wellFormed_refuses_egcd_rd_ry : ¬(Instr.egcd 4 5 4 0 1).WellFormed := by decide

-- V45, V104: a destination may be a source.
theorem test_wellFormed_allows_source_destinations :
    (Instr.divmod 0 1 0 1).WellFormed ∧ (Instr.egcd 0 1 2 0 1).WellFormed := by decide

/-! ### Decoding: every command's word from the spec, and one word per family bit by bit (R101 to R109) -/

-- V1, V2, V3, V5; LDI b1, 0xFFFF by its fields.
theorem test_decode_construction :
    decodeWord 0x00000000#32 = .ok .nop ∧ decodeWord 0x01700000#32 = .ok (.clr 7) ∧
    decodeWord 0x0210FFFF#32 = .ok (.ldi 1 0xFFFF#16) ∧ decodeWord 0x03290000#32 = .ok (.mov 2 9) ∧
    decodeWord 0b00000010_0001_0000_1111111111111111#32 = .ok (.ldi 1 0xFFFF#16) := by decide

-- V7, V15; ADD b2, b0, b1 by its fields.
theorem test_decode_addSub :
    decodeWord 0x10201000#32 = .ok (.add 2 0 1) ∧ decodeWord 0x11321000#32 = .ok (.sub 3 2 1) ∧
    decodeWord 0b00010000_0010_0000_0001_0000_0000_0000#32 = .ok (.add 2 0 1) := by decide

-- P2 row 3, V27, V31, V35, V40, P3 row 5; DIVMOD b3, b4, b0, b5 by its fields.
theorem test_decode_mulDiv :
    decodeWord 0x20645000#32 = .ok (.mul 6 4 5) ∧ decodeWord 0x2111000A#32 = .ok (.muli 1 1 10#16) ∧
    decodeWord 0x22301200#32 = .ok (.mulmod 3 0 1 2) ∧ decodeWord 0x28607000#32 = .ok (.div 6 0 7) ∧
    decodeWord 0x29201000#32 = .ok (.mod 2 0 1) ∧ decodeWord 0x2A305400#32 = .ok (.divmod 3 4 0 5) ∧
    decodeWord 0b00101010_0011_0000_0101_0100_0000_0000#32 = .ok (.divmod 3 4 0 5) := by decide

-- P1 rows 5 and 6, V56, V64; SHL b4, b2, -48 by its fields.
theorem test_decode_shift :
    decodeWord 0x3042FFD0#32 = .ok (.shl 4 2 0xFFD0#16) ∧ decodeWord 0x31100004#32 = .ok (.shr 1 0 4#16) ∧
    decodeWord 0x32512000#32 = .ok (.shlv 5 1 2) ∧ decodeWord 0x33201000#32 = .ok (.shrv 2 0 1) ∧
    decodeWord 0b00110000_0100_0010_1111111111010000#32 = .ok (.shl 4 2 (BitVec.ofInt 16 (-48))) := by decide

-- V67, V73, P3 row 9, P2 row 14; CMP b11, b9 by its fields.
theorem test_decode_bitsCompare :
    decodeWord 0x40000010#32 = .ok (.testbit 0 16#16) ∧ decodeWord 0x41100FFF#32 = .ok (.setbit 1 0 4095#16) ∧
    decodeWord 0x42700000#32 = .ok (.bitlen 7 0) ∧ decodeWord 0x480B9000#32 = .ok (.cmp 11 9) ∧
    decodeWord 0b01001000_0000_1011_1001_0000_0000_0000#32 = .ok (.cmp 11 9) := by decide

-- P2 rows 12, 9 and 10, P3 rows 3 and 6; EGCD b12, b13, b14, b7, b6 by its fields.
theorem test_decode_numberTheory :
    decodeWord 0x50A97200#32 = .ok (.expmod 10 9 7 2) ∧ decodeWord 0x51C76DE0#32 = .ok (.egcd 12 13 14 7 6) ∧
    decodeWord 0x52876000#32 = .ok (.modinv 8 7 6) ∧ decodeWord 0x58010000#32 = .ok (.mrw 1 0) ∧
    decodeWord 0x59030014#32 = .ok (.mrtest 3 20#16) ∧
    decodeWord 0b01010001_1100_0111_0110_1101_1110_0000#32 = .ok (.egcd 12 13 14 7 6) := by decide

-- V133 to V143.
theorem test_decode_refuses :
    decodeWord 0xFFFFFFFF#32 = .error .unassignedOpcode ∧ decodeWord 0x04000000#32 = .error .unassignedOpcode ∧
    decodeWord 0x00000001#32 = .error .mustBeZeroBits ∧ decodeWord 0x10201001#32 = .error .mustBeZeroBits ∧
    decodeWord 0x40100010#32 = .error .mustBeZeroBits ∧ decodeWord 0x03291000#32 = .error .mustBeZeroBits ∧
    decodeWord 0x2A202200#32 = .error .equalDestinations ∧ decodeWord 0x51401460#32 = .error .equalDestinations ∧
    decodeWord 0x51401550#32 = .error .equalDestinations ∧ decodeWord 0x51401540#32 = .error .equalDestinations := by decide

-- The table's numbering: the bits above the ones given are zero.
theorem test_decodeTableWord :
    decodeTableWord 32 0x10201000 = some (.add 2 0 1) ∧ decodeTableWord 8 0x10201000 = some .nop ∧
    decodeTableWord 32 0xFF000000 = none := by decide

-- The examples of R123.
theorem test_encode :
    encode (.add 2 0 1) = 0x10201000#32 ∧ encode (.shl 3 3 (BitVec.ofInt 16 (-1))) = 0x3033FFFF#32 ∧
    encode (.egcd 4 5 6 0 1) = 0x51401560#32 := by decide

/-! ### The assembler (R120 to R123) -/

-- R123, W5, P1 rows 5 and 7.
theorem test_assemble_lines :
    assembleLine "EGCD b4, b5, b6, b0, b1".toList = some (.egcd 4 5 6 0 1) ∧
    assembleLine "shl B4,b2,-48 ; to the right".toList = some (.shl 4 2 0xFFD0#16) ∧
    assembleLine "MRTEST b3".toList = some (.mrtest 3 20#16) ∧ assembleLine "NOP".toList = some .nop ∧
    assembleLine "LDI b1, 0xFFFF".toList = some (.ldi 1 0xFFFF#16) := by decide +kernel

-- Out of range, a sign where R120 gives none, a register the engine does not have (R107), a missing operand (R121).
theorem test_assemble_refuses :
    assembleLine "LDI b1, 65536".toList = none ∧ assembleLine "SHL b1, b0, -32769".toList = none ∧
    assembleLine "LDI b1, +5".toList = none ∧ assembleLine "SHL b1, b0, -0x10".toList = none ∧
    assembleLine "CLR b16".toList = none ∧ assembleLine "ADD b2, b0".toList = none := by decide +kernel

/-! ### One step per test -/

/-- The reset state with values in some registers. -/
def load (vs : List (Reg × Nat)) : State := vs.foldl (fun s v => s.setReg v.1 v.2) State.reset

/-- The same on a machine with `MAXSEG = 2`, so that `CAP = 2^32`, and `MMIO_BASE = 0x1000`. -/
def tiny (vs : List (Reg × Nat)) : State := vs.foldl (fun s v => s.setReg v.1 v.2) (State.resetWith ⟨2, 0x1000⟩)

/-- FLAGS set from its word. -/
def flagged (s : State) (f : Word) : State :=
  { s with flags := ⟨f.getLsbD 0, f.getLsbD 1, f.getLsbD 2, f.getLsbD 3, f.getLsbD 4⟩ }

/-- Draws supplied from outside. -/
def drawing (s : State) (ds : List Nat) : State := { s with draws := ds }

/-- The command word `w` completes without a fault: these registers hold these values and the others theirs, FLAGS and STATUS read
as the vector says, ERRCMD is as before. -/
def completes (s : State) (w : Nat) (rs : List (Reg × Nat)) (fl : Word) : Bool :=
  match step (s.withFetchWord 32 w) with
  | .next t =>
    rs.all (fun v => t.reg v.1 == v.2) && decide (∀ q : Reg, q ∉ rs.map (fun v => v.1) → t.reg q = s.reg q) &&
      t.flags.word == fl && t.status.word == 0x00000002#32 && t.errCmd == s.errCmd
  | _ => false

/-- The command word `w` completes with the fault of code `c`: registers and FLAGS as before, ERRCMD the word, STATUS with DONE,
ERR and the code. -/
def faults (s : State) (w : Nat) (c : BitVec 8) : Bool :=
  match step (s.withFetchWord 32 w) with
  | .next t =>
    t.regs == s.regs && t.flags == s.flags && t.errCmd == BitVec.ofNat 32 w && t.status.word == 0#16 ++ c ++ 0x06#8
  | _ => false

-- V1: NOP.
theorem test_nop : completes (load [(3, 5)]) 0x00000000 [] 0x00#32 := by decide +kernel
-- V2: CLR b7.
theorem test_clr : completes (load [(7, 74565)]) 0x01700000 [(7, 0)] 0x01#32 := by decide +kernel
-- V3: LDI b1, 65535.
theorem test_ldi : completes (load []) 0x0210FFFF [(1, 65535)] 0x00#32 := by decide +kernel
-- V4: LDI b1, 0.
theorem test_ldi_zero : completes (load [(1, 99)]) 0x02100000 [(1, 0)] 0x01#32 := by decide +kernel
-- V5: MOV b2, b9.
theorem test_mov : completes (load [(9, 3)]) 0x03290000 [(2, 3)] 0x00#32 := by decide +kernel
-- V6: MOV b4, b4.
theorem test_mov_self : completes (load [(4, 0)]) 0x03440000 [(4, 0)] 0x01#32 := by decide +kernel
-- V10: ADD b2, b0, b1.
theorem test_add_carries_through :
    completes (load [(0, 2 ^ 128 - 1), (1, 1)]) 0x10201000 [(2, 2 ^ 128)] 0x00#32 := by decide +kernel
-- V13: ADD b2, b0, b1.
theorem test_add_capacity : faults (load [(0, 2 ^ 4096 - 1), (1, 1)]) 0x10201000 0x04#8 := by decide +kernel
-- V16: SUB b3, b0, b1.
theorem test_sub_borrows_through :
    completes (load [(0, 2 ^ 96), (1, 1)]) 0x11301000 [(3, 2 ^ 96 - 1)] 0x00#32 := by decide +kernel
-- V20: SUB b3, b0, b1.
theorem test_sub_underflow :
    faults (load [(0, 2 ^ 64), (1, 0x10000000000000001)]) 0x11301000 0x02#8 := by decide +kernel
-- V23: MUL b2, b0, b1.
theorem test_mul :
    completes (load [(0, 2 ^ 64 - 1), (1, 2 ^ 64 - 1)]) 0x20201000 [(2, 0xFFFFFFFFFFFFFFFE0000000000000001)] 0x00#32 := by
  decide +kernel
-- V26: MUL b2, b0, b1.
theorem test_mul_capacity : faults (load [(0, 2 ^ 2048), (1, 2 ^ 2048)]) 0x20201000 0x04#8 := by decide +kernel
-- V29: MULI b1, b0, 65535.
theorem test_muli :
    completes (load [(0, 0xFFFFFFFF)]) 0x2110FFFF [(1, 0xFFFEFFFF0001)] 0x00#32 := by decide +kernel
-- V30: MULI b1, b0, 2.
theorem test_muli_capacity : faults (load [(0, 2 ^ 4095)]) 0x21100002 0x04#8 := by decide +kernel
-- V34: MULMOD b3, b0, b0, b2.
theorem test_mulmod :
    completes (load [(0, 0x100000000000000000003), (2, 2 ^ 61 - 1)]) 0x22300200 [(3, 0x4000300009)] 0x00#32 := by
  decide +kernel
-- V33: MULMOD b3, b0, b1, b2.
theorem test_mulmod_divzero : faults (load [(0, 5), (1, 7), (2, 0)]) 0x22301200 0x03#8 := by decide +kernel
-- V39: DIV b2, b0, b1.
theorem test_div :
    completes (load [(0, 2 ^ 200 - 1), (1, 65535)]) 0x28201000 [(2, 0x10001000100010001000100010001000100010001000100)] 0x00#32 := by
  decide +kernel
-- V37: DIV b2, b0, b1.
theorem test_div_divzero : faults (load [(0, 0), (1, 0)]) 0x28201000 0x03#8 := by decide +kernel
-- V41: MOD b2, b0, b1.
theorem test_mod :
    completes (load [(0, 0x10000000000000005), (1, 0x100000001)]) 0x29201000 [(2, 6)] 0x00#32 := by decide +kernel
-- V43: MOD b2, b0, b1.
theorem test_mod_divzero : faults (load [(0, 9), (1, 0)]) 0x29201000 0x03#8 := by decide +kernel
-- V45: DIVMOD b0, b1, b0, b1.
theorem test_divmod_overlap :
    completes (load [(0, 0xF4241), (1, 1000)]) 0x2A001100 [(0, 1000), (1, 1)] 0x00#32 := by decide +kernel
-- V46: DIVMOD b2, b3, b0, b1.
theorem test_divmod_divzero : faults (load [(0, 7), (1, 0)]) 0x2A201300 0x03#8 := by decide +kernel
-- V47: SHL b1, b0, 17.
theorem test_shl_across_segments :
    completes (load [(0, 32769)]) 0x30100011 [(1, 0x100020000)] 0x00#32 := by decide +kernel
-- V48: SHL b3, b3, -1.
theorem test_shl_negative : completes (load [(3, 7)]) 0x3033FFFF [(3, 3)] 0x00#32 := by decide +kernel
-- V56: SHR b1, b0, 4.
theorem test_shr_across_segments :
    completes (load [(0, 0x100000000)]) 0x31100004 [(1, 0x10000000)] 0x00#32 := by decide +kernel
-- V59: SHR b1, b0, -4096.
theorem test_shr_negative_capacity : faults (load [(0, 1)]) 0x3110F000 0x04#8 := by decide +kernel
-- V63: SHLV b2, b0, b0.
theorem test_shlv_count_is_source : completes (load [(0, 5)]) 0x32200000 [(2, 160)] 0x00#32 := by decide +kernel
-- V62: SHLV b2, b0, b1.
theorem test_shlv_capacity : faults (load [(0, 1), (1, 2 ^ 100)]) 0x32201000 0x04#8 := by decide +kernel
-- V64: SHRV b2, b0, b1.
theorem test_shrv :
    completes (load [(0, 0x30000000000), (1, 40)]) 0x33201000 [(2, 3)] 0x00#32 := by decide +kernel
-- V65: SHRV b2, b0, b1.
theorem test_shrv_large_count :
    completes (load [(0, 2 ^ 4095), (1, 2 ^ 64)]) 0x33201000 [(2, 0)] 0x01#32 := by decide +kernel
-- V67: TESTBIT b0, 16.
theorem test_testbit : completes (load [(0, 65536)]) 0x40000010 [] 0x10#32 := by decide +kernel
-- V69: TESTBIT b0, 65535.
theorem test_testbit_past_top :
    completes (flagged (load [(0, 2 ^ 4096 - 1)]) 0x10#32) 0x4000FFFF [] 0x00#32 := by decide +kernel
-- V71: SETBIT b0, b0, 33.
theorem test_setbit : completes (load [(0, 1)]) 0x41000021 [(0, 0x200000001)] 0x00#32 := by decide +kernel
-- V74: SETBIT b1, b0, 4096.
theorem test_setbit_capacity : faults (load [(0, 0)]) 0x41101000 0x04#8 := by decide +kernel
-- V78: BITLEN b0, b0.
theorem test_bitlen : completes (load [(0, 65536)]) 0x42000000 [(0, 17)] 0x00#32 := by decide +kernel
-- V76: BITLEN b1, b0.
theorem test_bitlen_zero : completes (load [(0, 0)]) 0x42100000 [(1, 0)] 0x01#32 := by decide +kernel
-- V79: CMP b0, b1.
theorem test_cmp_lt : completes (load [(0, 65535), (1, 65536)]) 0x48001000 [] 0x02#32 := by decide +kernel
-- V81: CMP b0, b0.
theorem test_cmp_keeps_others :
    completes (flagged (load [(0, 12345)]) 0x11#32) 0x48000000 [] 0x15#32 := by decide +kernel
-- V84: EXPMOD b3, b0, b1, b2.
theorem test_expmod :
    completes (load [(0, 4), (1, 13), (2, 497)]) 0x50301200 [(3, 445)] 0x00#32 := by decide +kernel
-- V88: EXPMOD b3, b0, b1, b2.
theorem test_expmod_modulo_one :
    completes (load [(0, 5), (1, 0), (2, 1)]) 0x50301200 [(3, 0)] 0x01#32 := by decide +kernel
-- V104: EGCD b0, b1, b2, b0, b1.
theorem test_egcd_overlap :
    completes (load [(0, 6), (1, 4)]) 0x51001120 [(0, 2), (1, 1), (2, 1)] 0x00#32 := by decide +kernel
-- V103: EGCD b4, b5, b6, b0, b1.
theorem test_egcd_domain : faults (load [(0, 0), (1, 5)]) 0x51401560 0x05#8 := by decide +kernel
-- V111: MODINV b0, b0, b1.
theorem test_modinv : completes (load [(0, 3), (1, 7)]) 0x52001000 [(0, 5)] 0x00#32 := by decide +kernel
-- V106: MODINV b2, b0, b1.
theorem test_modinv_none :
    completes (flagged (load [(0, 6), (1, 9)]) 0x01#32) 0x52201000 [] 0x11#32 := by decide +kernel
-- V113: MRW b0, b1.
theorem test_mrw_square_root : completes (load [(0, 2), (1, 341)]) 0x58001000 [] 0x10#32 := by decide +kernel
-- V122: MRW b0, b1.
theorem test_mrw_underflow : faults (load [(0, 2), (1, 0)]) 0x58001000 0x02#8 := by decide +kernel
-- V127: MRTEST b0, 20.
theorem test_mrtest_draws :
    completes (drawing (load [(0, 15)]) ([1, 14] ++ List.replicate 18 2)) 0x59000014 [] 0x10#32 := by decide +kernel
-- V132: MRTEST b0, 20.
theorem test_mrtest_underflow : faults (load [(0, 0)]) 0x59000014 0x02#8 := by decide +kernel

/-! ### Host accesses (spec/95_test_vectors.md section 3; offsets from `MMIO_BASE`) -/

-- M1: accepted undecoded, and the second CMD write dropped.
theorem test_cmd_accepts :
    (State.reset.hostWrite 0x014 0x02100007#32).pend = 0x02100007#32 ∧
    (State.reset.hostWrite 0x014 0x02100007#32).status.word = 0x00000001#32 ∧
    (State.reset.hostWrite 0x014 0xFFFFFFFF#32).status.word = 0x00000001#32 := by decide
theorem test_cmd_dropped_while_busy :
    let s := (State.reset.hostWrite 0x014 0x02100007#32).hostWrite 0x014 0x00000000#32
    s.pend = 0x02100007#32 ∧ s.cmdCnt = 1#32 ∧ s.status.word = 0x00000009#32 := by decide

-- P1 steps 26 to 31: dropped while ERR = 1, then acknowledged.
theorem test_cmd_dropped_while_err :
    let s := { State.reset with status := ⟨false, true, true, false, 0x04#8⟩ }
    (s.hostWrite 0x014 0x00000000#32).status.word = 0x0000040E#32 ∧
    (s.hostWrite 0x014 0x00000000#32).cmdCnt = 0#32 ∧
    ((s.hostWrite 0x014 0x00000000#32).hostWrite 0x00C 0x0000000E#32).status.word = 0x00000000#32 := by decide

-- M5 step 8: clearing DONE alone keeps ERR, ERRCODE and IRQ.
theorem test_acknowledge_done_only :
    let s := { State.reset with status := ⟨false, true, true, false, 0x02#8⟩, ctrl := ⟨true, false⟩ }
    (s.hostWrite 0x00C 0x00000002#32).status.word = 0x00000204#32 ∧ (s.hostWrite 0x00C 0x00000002#32).irq = true ∧
    (s.hostWrite 0x00C 0x00000006#32).irq = false := by decide

-- M2: the window while busy.
theorem test_window_while_busy :
    let s := { load [(3, 0x1234)] with wsel := 3, status := ⟨true, false, false, false, 0#8⟩ }
    (s.hostRead 0x028).answer = some 0#64 ∧ (s.hostRead 0x028).status.word = 0x00000009#32 ∧
    (s.hostRead 0x02C).answer = some 0#64 ∧ (s.hostWrite 0x028 0x0000FFFF#32).regs = s.regs := by decide

-- M3 steps 4 to 6: the last segment, then an index past the capacity, which still advances.
theorem test_wdata_capacity_edge :
    let s := { tiny [] with widx := 1#16, ctrl := ⟨false, true⟩ }
    (s.hostWrite 0x028 0x1234AAAA#32).reg 0 = 0xAAAA0000 ∧ (s.hostWrite 0x028 0x1234AAAA#32).widx = 2#16 ∧
    ((s.hostWrite 0x028 0x0000AAAA#32).hostWrite 0x028 0x0000BBBB#32).status.word = 0x00000008#32 ∧
    ((s.hostWrite 0x028 0x0000AAAA#32).hostWrite 0x028 0x0000BBBB#32).widx = 3#16 := by decide

-- M3 steps 8 to 10: the index wraps.
theorem test_widx_wraps :
    let s := { State.reset with widx := 0xFFFF#16, ctrl := ⟨false, true⟩ }
    (s.hostRead 0x028).answer = some 0#64 ∧ (s.hostRead 0x028).widx = 0#16 := by decide

-- M4: writing 0 to the top segment shortens the value; P1 steps 33 and 34: WLEN and WBITS.
theorem test_wdata_canonical :
    let s := { load [(0, 0x10000)] with widx := 1#16 }
    (s.hostWrite 0x028 0x00000000#32).reg 0 = 0 ∧ (s.hostRead 0x02C).answer = some 2#64 ∧
    ((s.hostWrite 0x028 0x00000000#32).hostRead 0x02C).answer = some 0#64 := by decide +kernel
theorem test_wlen_wbits :
    let s := { load [(2, 0x1000000000000)] with wsel := 2 }
    (s.hostRead 0x02C).answer = some 4#64 ∧ (s.hostRead 0x030).answer = some 49#64 := by decide +kernel

-- M6: soft reset cancels the pending command and stores neither IE nor AINC.
theorem test_soft_reset_while_busy :
    let s := { load [(0, 9)] with status := ⟨true, false, false, true, 0#8⟩, cmdCnt := 2#32, ctrl := ⟨true, true⟩ }
    s.hostWrite 0x008 0x00000007#32 = State.reset := by decide

-- P1 steps 1 to 3: ID, PARAM; CTRL keeps IE and AINC only.
theorem test_constants :
    (State.reset.hostRead 0x000).answer = some 0x48454C58#64 ∧ (State.reset.hostRead 0x004).answer = some 0x000F0100#64 ∧
    ((State.reset.hostWrite 0x008 0xFFFFFFFE#32).hostRead 0x008).answer = some 0x00000006#64 := by decide

-- R39, R40: the written bits alone.
theorem test_wsel_widx :
    ((State.reset.hostWrite 0x020 0xFFFFFFFA#32).hostRead 0x020).answer = some 0x0000000A#64 ∧
    ((State.reset.hostWrite 0x024 0xFFFF0101#32).hostRead 0x024).answer = some 0x00000101#64 := by decide

-- M7: reserved words and CMD read 0 without OVR.
theorem test_reserved :
    State.reset.hostRead 0x034 = { State.reset with answer := some 0#64 } ∧
    State.reset.hostWrite 0xFFC 0x12345678#32 = State.reset ∧
    State.reset.hostRead 0x014 = { State.reset with answer := some 0#64 } := by decide

-- The closing lines of section 3: an 8-bit write to 0x008, a 32-bit read at 0x00E.
theorem test_odd_accesses :
    (State.reset.access (.write 0x008 .w8 1#64)).status.word = 0x00000008#32 ∧
    (State.reset.access (.write 0x008 .w8 1#64)).ctrl = ⟨false, false⟩ ∧
    (State.reset.access (.read 0x00E .w32)).answer = some 0#64 ∧
    (State.reset.access (.read 0x00E .w32)).status.word = 0x00000008#32 := by decide

-- R63: the lowest address carries the least significant byte, of a read and of a write; the window lies where MMIO_BASE says (R61).
theorem test_lanes_and_base :
    ((tiny []).access (.read 0x1000 .w32)).answer.map (fun v => (lane v 0, lane v 3)) = some (0x58#8, 0x48#8) ∧
    ((tiny []).access (.write 0x1024 .w32 0xFF00001234#64)).widx = 0x1234#16 ∧
    ((tiny []).access (.read 0x0000 .w32)).answer = none := by decide

/-! ### Witnesses: states and operands that meet each statement's hypotheses, clause by clause -/

/-- The engine busy with the command word `w`. -/
def pending (s : State) (w : Word) : State := { s with pend := w, status := ⟨true, false, false, false, 0#8⟩ }

/-- Whether a step leaves another value in a register. -/
def rewrites (s : State) (q : Reg) : Bool := match step s with | .next t => t.reg q != s.reg q | _ => false

/-- Whether a command's completion ends with ERR = 1. -/
def errs (i : Instr) (s : State) : Bool := match exec i s with | .next t => t.status.err | _ => false

theorem witness_DecodeOfEncode :
    (Instr.divmod 0 15 15 0).WellFormed ∧ (Instr.egcd 15 0 1 15 0).WellFormed ∧ (Instr.ldi 15 0xFFFF#16).WellFormed := by
  decide

theorem witness_EncodeOfDecode : decodeWord 0x51001120#32 = .ok (.egcd 0 1 2 0 1) := by decide

theorem witness_DecodingTotalAndUnambiguous :
    (Instr.nop).row ∈ opcodeTable ∧ (Instr.nop).row.selects 0x00000000#32 = true ∧ decodeWord 0x00000000#32 = .ok .nop ∧
    (∃ r ∈ opcodeTable, r.selects 0x2A202200#32 = true) ∧ (∀ r ∈ opcodeTable, r.selects 0xFF000000#32 = false) ∧
    (∀ r ∈ opcodeTable, r.selects 0x00000001#32 = false) := by decide

theorem witness_IllegalWordsFault :
    State.reset.status.busy = false ∧ State.reset.status.err = false ∧
    (opcodeOf 0x5A000000#32).toNat ∉ [0x58, 0x59] ∧ (∀ r ∈ opcodeTable, opcodeOf r.pattern ≠ opcodeOf 0x5A000000#32) ∧
    (∃ r ∈ opcodeTable, opcodeOf 0x00800000#32 = opcodeOf r.pattern ∧ 0x00800000#32 &&& r.mask ≠ r.pattern) ∧
    (opcodeOf 0x2A202200#32 = 0x2A#8 ∧ regField 0x2A202200#32 20 = regField 0x2A202200#32 8) ∧
    (opcodeOf 0x51401460#32 = 0x51#8 ∧ regField 0x51401460#32 20 = regField 0x51401460#32 8) ∧
    (opcodeOf 0x51401540#32 = 0x51#8 ∧ regField 0x51401540#32 20 = regField 0x51401540#32 4) ∧
    (opcodeOf 0x51401550#32 = 0x51#8 ∧ regField 0x51401550#32 8 = regField 0x51401550#32 4) := by decide

theorem witness_AssemblerImmediates :
    asmUimm (-1) = none ∧ asmUimm 0 = some 0#16 ∧ asmUimm 65535 = some 0xFFFF#16 ∧ asmUimm 65536 = none ∧
    asmSimm (-32769) = none ∧ asmSimm (-32768) = some 0x8000#16 ∧ asmSimm 32767 = some 0x7FFF#16 ∧ asmSimm 32768 = none := by
  decide

theorem witness_AssemblerOperandOrder :
    asmSimm (-48) = some 0xFFD0#16 ∧ asmUimm 65535 = some 0xFFFF#16 ∧ (-32769 : Int) < -32768 ∧ (32767 : Int) < 32768 ∧
    (-1 : Int) < 0 ∧ (65535 : Int) < 65536 := by decide

theorem witness_StepRunsTheDecodedCommand :
    let s := pending State.reset 0x0210FFFF#32
    s.status.busy = true ∧ decodeWord s.pend = .ok (.ldi 1 0xFFFF#16) ∧ s.schedule = [] ∧
    { s with schedule := [.engine] }.schedule = .engine :: [] ∧
    { s with schedule := [.host (.read 0 .w32)] }.schedule = .host (.read 0 .w32) :: [] ∧
    0x0210FFFF < 2 ^ 32 ∧ decodeTableWord 32 0x0210FFFF = some (.ldi 1 0xFFFF#16) := by decide

theorem witness_IdleEngineKeepsState :
    State.reset.status.busy = false ∧ State.reset.schedule = [] ∧
    { State.reset with schedule := [.engine] }.schedule = .engine :: [] := by decide

theorem witness_PendingCommandEnds :
    { pending State.reset 0x00000000#32 with schedule := [.host (.read 0x00C .w32), .engine] }.status.busy = true := by decide

theorem witness_CompletionFrame :
    (∃ t, exec (.ldi 1 7#16) State.reset = .next t) ∧ (0 : Reg) ∉ (Instr.ldi 1 7#16).destinations ∧
    ∀ rs1 imm, Instr.ldi 1 7#16 ≠ .mrtest rs1 imm := ⟨⟨_, rfl⟩, by decide, by simp⟩

theorem witness_FaultCodesByCommand :
    let s := tiny [(1, 1), (3, 2 ^ 31), (4, 32)]
    s.status.err = false ∧
    errs (.sub 2 0 1) s ∧ errs (.mrw 1 0) s ∧ errs (.mrtest 0 0#16) s ∧ errs (.div 2 1 0) s ∧ errs (.mod 2 1 0) s ∧
    errs (.divmod 2 5 1 0) s ∧ errs (.mulmod 2 1 1 0) s ∧ errs (.expmod 2 1 1 0) s ∧ errs (.modinv 2 1 0) s ∧
    errs (.add 2 3 3) s ∧ errs (.mul 2 3 4) s ∧ errs (.muli 2 3 2#16) s ∧ errs (.shl 2 1 32#16) s ∧
    errs (.shr 2 1 0xFFE0#16) s ∧ errs (.shlv 2 1 4) s ∧ errs (.setbit 2 1 32#16) s ∧ errs (.egcd 5 6 7 0 1) s ∧
    errs (.egcd 5 6 7 1 0) { s with params := ⟨0, 0⟩ } := by decide +kernel

theorem witness_StepKeepsInvariant :
    let s := pending (tiny [(0, 2 ^ 32 - 1), (1, 1)]) 0x10201000#32
    s.Inv ∧ (∃ t, step s = .next t) ∧ { s with schedule := [.host (.write 0x1008 .w32 1#64)] }.Inv ∧
    ∃ t, step { s with schedule := [.host (.write 0x1008 .w32 1#64)] } = .next t :=
  ⟨by decide, ⟨_, rfl⟩, by decide, ⟨_, rfl⟩⟩

theorem witness_ResetMeetsInvariant :
    (⟨2, 0⟩ : Params).legal ∧ (⟨65535, 0x1000⟩ : Params).legal ∧ ¬(⟨1, 0⟩ : Params).legal ∧ ¬(⟨65536, 0⟩ : Params).legal := by
  decide

theorem witness_RegisterWriters :
    rewrites (pending State.reset 0x0210FFFF#32) 1 ∧
    rewrites { State.reset with schedule := [.host (.write 0x028 .w32 5#64)] } 0 ∧
    rewrites { load [(3, 9)] with schedule := [.host (.write 0x008 .w32 1#64)] } 3 := by decide +kernel

theorem witness_AddResult :
    (tiny [(0, 2 ^ 32 - 2), (1, 1)]).reg 0 + (tiny [(0, 2 ^ 32 - 2), (1, 1)]).reg 1 = 65536 ^ 2 - 1 ∧
    (tiny [(0, 2 ^ 32 - 1), (1, 1)]).reg 0 + (tiny [(0, 2 ^ 32 - 1), (1, 1)]).reg 1 = 65536 ^ 2 ∧
    (tiny []).params.maxSeg = 2 := by decide

theorem witness_SubResult :
    (tiny [(0, 7), (1, 7)]).reg 1 ≤ (tiny [(0, 7), (1, 7)]).reg 0 ∧ (tiny [(0, 6), (1, 7)]).reg 0 < (tiny [(0, 6), (1, 7)]).reg 1 := by
  decide

theorem witness_AddSubLaws :
    let s := tiny [(0, 2 ^ 32 - 2), (1, 1)]
    s.status.err = false ∧ (2 : Reg) ≠ 1 ∧ s.reg 0 + s.reg 1 < 65536 ^ s.params.maxSeg ∧ ∃ t, exec (.sub 2 0 1) s = .next t :=
  ⟨by decide, by decide, by decide, ⟨_, rfl⟩⟩

theorem witness_MulResult :
    (tiny [(0, 65537), (1, 65535)]).reg 0 * (tiny [(0, 65537), (1, 65535)]).reg 1 = 65536 ^ 2 - 1 ∧
    (tiny [(0, 65536), (1, 65536)]).reg 0 * (tiny [(0, 65536), (1, 65536)]).reg 1 = 65536 ^ 2 := by decide

theorem witness_MuliResult :
    (tiny [(0, 65537)]).reg 0 * (65535#16).toNat = 65536 ^ 2 - 1 ∧ (tiny [(0, 2 ^ 31)]).reg 0 * (2#16).toNat = 65536 ^ 2 := by
  decide

theorem witness_MulmodResult : (tiny [(2, 1)]).reg 2 ≠ 0 ∧ (tiny [(2, 1)]).reg 3 = 0 := by decide

theorem witness_LongDivisionIsFloorDivision : (1 : Nat) ≠ 0 := by decide

theorem witness_DivisionResults :
    (tiny [(1, 1)]).reg 1 ≠ 0 ∧ (tiny [(1, 1)]).reg 0 = 0 ∧ (2 : Reg) ≠ 3 := by decide

theorem witness_SegmentShifterExact :
    (1 : Nat) ≠ 0 ∧ 32 < bitlen 1 + 32 ∧ bitlen 1 + 31 ≤ 32 ∧ shiftLeft 32 1 31 = some (2 ^ 31) ∧
    shiftLeft 32 (shiftRight 5 1) 1 = some 4 := by decide +kernel

theorem witness_ShlResult :
    let s := tiny [(1, 1)]
    s.RegsBounded ∧ s.reg 1 ≠ 0 ∧
    (0 < (32#16).toInt ∧ 16 * s.params.maxSeg < bitlen (s.reg 1) + (32#16).toInt.toNat) ∧
    (0 ≤ (31#16).toInt ∧ ¬16 * s.params.maxSeg < bitlen (s.reg 1) + (31#16).toInt.toNat) ∧
    (0 ≤ (0#16).toInt ∧ ¬0 < (0#16).toInt) ∧ (0x8000#16).toInt = -32768 := by decide +kernel

theorem witness_ShrResult :
    let s := tiny [(1, 1)]
    s.reg 1 ≠ 0 ∧
    ((0xFFE0#16).toInt < 0 ∧ 16 * s.params.maxSeg < bitlen (s.reg 1) + (-(0xFFE0#16).toInt).toNat) ∧
    ((0xFFE1#16).toInt < 0 ∧ ¬16 * s.params.maxSeg < bitlen (s.reg 1) + (-(0xFFE1#16).toInt).toNat) ∧
    0 ≤ (0#16).toInt := by decide +kernel

theorem witness_RegisterShiftResults :
    (let s := tiny [(1, 1), (2, 32)]; s.reg 1 ≠ 0 ∧ 16 * s.params.maxSeg < bitlen (s.reg 1) + s.reg 2) ∧
    (let s := tiny [(1, 1), (2, 31)]; ¬16 * s.params.maxSeg < bitlen (s.reg 1) + s.reg 2) := by decide +kernel

theorem witness_SetbitResult :
    (31#16).toNat < 16 * (tiny []).params.maxSeg ∧ 16 * (tiny []).params.maxSeg ≤ (32#16).toNat := by decide

theorem witness_ExpmodResult : (tiny [(2, 1)]).reg 2 ≠ 0 ∧ (tiny [(2, 1)]).reg 3 = 0 := by decide

theorem witness_EuclidRecurrence :
    0 < 17 ∧ 0 < 3120 ∧ extendedEuclid 3120 (17 % 3120) = (1, 2, 367) ∧ extendedEuclid 17 3120 = (1, 2753, 15) ∧
    extendedEuclid 0 0 = (0, 1, 0) := by decide +kernel

theorem witness_EgcdResult :
    ((4 : Reg) ≠ 5 ∧ (4 : Reg) ≠ 6 ∧ (5 : Reg) ≠ 6) ∧ ((tiny [(1, 5)]).reg 0 = 0 ∧ (tiny [(1, 5)]).reg 1 ≠ 0) ∧
    extendedEuclid ((tiny [(0, 17), (1, 3120)]).reg 0) ((tiny [(0, 17), (1, 3120)]).reg 1) = (1, 2753, 15) ∧
    ¬(65536 ^ 2 ≤ 2753 ∨ 65536 ^ 2 ≤ 15) ∧ extendedEuclid 1 0 = (1, 1, 0) ∧ 65536 ^ 0 ≤ 1 := by decide +kernel

theorem witness_EgcdBezout :
    let s := tiny [(0, 17), (1, 3120)]
    (4 : Reg) ≠ 5 ∧ (4 : Reg) ≠ 6 ∧ (5 : Reg) ≠ 6 ∧ s.status.err = false ∧ (∃ t, exec (.egcd 4 5 6 0 1) s = .next t) ∧
    errs (.egcd 4 5 6 0 1) s = false :=
  ⟨by decide, by decide, by decide, by decide,
    (by show ∃ t, execEgcd 4 5 6 0 1 _ = .next t; unfold execEgcd; dsimp only; split
        · exact ⟨_, rfl⟩
        · split <;> exact ⟨_, rfl⟩),
    by decide +kernel⟩

theorem witness_EgcdNeverFaultsCapacity :
    let s := tiny [(0, 2 ^ 32 - 1), (1, 2 ^ 32 - 2)]
    s.params.legal ∧ s.RegsBounded ∧ (4 : Reg) ≠ 5 ∧ (4 : Reg) ≠ 6 ∧ (5 : Reg) ≠ 6 ∧ 0 < s.reg 0 ∧ 0 < s.reg 1 ∧
    s.reg 2 = 0 := by decide

theorem witness_ModinvResult :
    (let s := tiny [(0, 5), (1, 1)]; s.reg 1 ≠ 0 ∧ Nat.gcd (s.reg 0) (s.reg 1) = 1) ∧
    (let s := tiny [(0, 6), (1, 9)]; s.reg 1 ≠ 0 ∧ Nat.gcd (s.reg 0) (s.reg 1) ≠ 1) ∧ (tiny []).reg 1 = 0 := by decide +kernel

theorem witness_WitnessInPowers : 2 ≤ 2 := by decide

theorem witness_MrwResult :
    (tiny [(1, 1)]).reg 1 = 1 ∧ (tiny [(1, 2)]).reg 1 = 2 ∧ (tiny [(0, 1)]).reg 0 = 1 ∧
    ((tiny [(0, 7), (1, 7)]).reg 0 % (tiny [(0, 7), (1, 7)]).reg 1 = 0) ∧
    Nat.Prime ((tiny [(0, 6), (1, 7)]).reg 1) ∧ (tiny [(0, 6), (1, 7)]).reg 0 = (tiny [(0, 6), (1, 7)]).reg 1 - 1 ∧
    (tiny []).reg 1 = 0 :=
  ⟨by decide, by decide, by decide, by decide, (by show Nat.Prime 7; norm_num), by decide, by decide⟩

theorem witness_MrtestResult :
    let s := drawing (tiny [(0, 15)]) [14, 1]
    s.reg 0 ≠ 0 ∧ s.draws[0]? = some 14 ∧ 1 ≤ 14 ∧ 14 ≤ max 1 (s.reg 0 - 1) ∧ s.reg 1 = 0 := by decide

theorem witness_MrtestNeverFlagsAPrime :
    Nat.Prime ((tiny [(0, 2)]).reg 0) ∧ (tiny [(0, 1)]).reg 0 = 1 := ⟨(by show Nat.Prime 2; norm_num), by decide⟩

theorem witness_PlainReads :
    let s := State.reset
    (0x01C, s.cmdCnt) ∈ [(0x018, s.errCmd), (0x01C, s.cmdCnt)] ∧
    (0x034 ≤ 0x034 ∧ 0x034 ≤ 0xFFC ∧ 0x034 % 4 = 0) ∧ (0x034 ≤ 0xFFC ∧ 0xFFC ≤ 0xFFC ∧ 0xFFC % 4 = 0) := by decide

theorem witness_IgnoredWrites :
    0x000 ∈ [0x000, 0x004, 0x010, 0x018, 0x01C, 0x02C, 0x030] ∧ (0x034 ≤ 0xFFC ∧ 0xFFC ≤ 0xFFC ∧ 0xFFC % 4 = 0) := by decide

theorem witness_CmdWrite :
    (pending State.reset 0#32).status.busy = true ∧ State.reset.status.busy = false ∧ State.reset.status.err = false ∧
    { State.reset with status := ⟨false, true, true, false, 1#8⟩ }.status.err = true := by decide

theorem witness_CtrlWrite : (0x00000001#32 : Word).getLsbD 0 = true ∧ (0x00000006#32 : Word).getLsbD 0 = false := by decide

theorem witness_WdataAccess :
    (pending State.reset 0#32).status.busy = true ∧
    (let s := { tiny [] with widx := 2#16 }; s.status.busy = false ∧ s.params.maxSeg ≤ s.widx.toNat) ∧
    (let s := { tiny [] with widx := 1#16 }; s.status.busy = false ∧ s.widx.toNat < s.params.maxSeg) := by decide

theorem witness_WlenWbitsReads :
    (tiny [(0, 2 ^ 32 - 1)]).Inv ∧ (pending (tiny []) 0#32).Inv := by decide

theorem witness_SegmentArrayLoads :
    let s := { tiny [] with ctrl := ⟨false, true⟩ }
    s.params.legal ∧ s.status.busy = false ∧ s.ctrl.ainc = true ∧ s.widx = 0#16 ∧ s.reg s.wsel = 0 ∧
    [0xFFFF#16, 1#16].length ≤ s.params.maxSeg := by decide

theorem witness_OddAccessesDropped :
    (0xFFF ≤ 0xFFF ∧ Width.w8 ≠ .w32) ∧ (0 ≤ 0xFFF ∧ Width.w64 ≠ .w32) ∧ (2 ≤ 0xFFF ∧ 2 % 4 ≠ 0) := by decide

theorem witness_OutsideAccessesIgnored :
    0x0FFF < (tiny []).params.mmioBase ∧ (tiny []).params.mmioBase + 0xFFF < 0x2000 := by decide

theorem witness_ByteLanesLittleEndian :
    (0x000 ≤ 0xFFF ∧ 0x000 % 4 = 0) ∧ (0xFFC ≤ 0xFFF ∧ 0xFFC % 4 = 0) ∧ (3 < 4 ∧ 7 < 8) ∧
    ∀ k, k < 4 → ∀ j, j < 8 → (lane 0xFF48454C58#64 k).getLsbD j = (0x48454C58#32 : Word).getLsbD (8 * k + j) := by decide

theorem witness_InterruptLine :
    (∃ t, exec .nop State.reset = .next t) ∧ State.reset.status.busy = false ∧ State.reset.status.err = false :=
  ⟨⟨_, rfl⟩, by decide, by decide⟩

end Sys2Proof.Tests
end

/-! PROOF. The frame of a completion (O13), and the invariant of the machine kept by every step (O15). -/

namespace Sys2Proof.Machine

/-! ### What one answered completion or step can be -/

/-- `exec_cases` for a completion known to answer `t`. -/
theorem exec_next_cases {i : Instr} {s t : State} (h : exec i s = .next t) :
    (∃ f, t = s.raiseFault f) ∨ CompletesTo i s t := by
  rcases exec_cases i s with ⟨f, hf⟩ | ⟨u, hu, hc⟩
  · rw [h, Host.Outcome.next.injEq] at hf
    exact Or.inl ⟨f, hf⟩
  · rw [h, Host.Outcome.next.injEq] at hu
    exact Or.inr (hu ▸ hc)

/-- `engineTurn_cases` for a turn known to answer `t`. -/
theorem engineTurn_next_cases {s t : State} (h : engineTurn s = .next t) :
    t = s ∨ (∃ f, t = s.raiseFault f) ∨ ∃ i, CompletesTo i s t := by
  rcases engineTurn_cases s with ⟨-, hu⟩ | ⟨-, f, hu⟩ | ⟨-, i, u, -, hu, hc⟩ <;>
    rw [h, Host.Outcome.next.injEq] at hu <;> subst hu
  · exact Or.inl rfl
  · exact Or.inr (Or.inl ⟨f, rfl⟩)
  · exact Or.inr (Or.inr ⟨i, hc⟩)

/-- A step is the turn of one agent, taken with that turn gone from the schedule (R69, R310). -/
theorem step_cases (s : State) :
    (∃ rest, step s = engineTurn { s with schedule := rest }) ∨
    ∃ a rest, step s = .next (State.access { s with schedule := rest } a) := by
  rcases hs : s.schedule with _ | ⟨a | _, rest⟩
  · exact Or.inl ⟨[], by rw [step_engine hs, ← hs]⟩
  · exact Or.inr ⟨a, rest, step_host hs⟩
  · exact Or.inl ⟨rest, step_engine_scheduled hs⟩

/-! ### The frame of a completion -/

/-- Settles O13: both ways a completion can end, a fault and a completion without one, keep the frame. -/
theorem completionFrame : Obligations.CompletionFrame := by
  intro i s t h
  rcases exec_next_cases h with ⟨f, rfl⟩ | ⟨hreg, heq, hdraw, -, -⟩
  · exact ⟨fun _ _ => rfl, rfl, fun _ => ⟨rfl, rfl⟩⟩
  · have hstatus : t.status = { s.status with busy := false, done := true } := by rw [heq]
    have herr : t.errCmd = s.errCmd := by rw [heq]
    refine ⟨hreg, ?_, hdraw⟩
    rw [hstatus, herr]
    exact heq

/-! ### The invariant under each update of the state -/

theorem State.Inv.legal {s : State} (h : s.Inv) : s.params.legal := h.1

theorem State.Inv.regsBounded {s : State} (h : s.Inv) : s.RegsBounded := h.2.1

theorem State.Inv.errCoded {s : State} (h : s.Inv) : s.status.ErrCoded := h.2.2.1

theorem State.Inv.busyClean {s : State} (h : s.Inv) : s.status.BusyClean := h.2.2.2.1

theorem State.Inv.orderExclusive {s : State} (h : s.Inv) : s.flags.OrderExclusive := h.2.2.2.2

/-- Once the parameters, registers and FLAGS are as before, only STATUS is left to check. -/
theorem State.Inv.of_status {s t : State} (h : s.Inv) (hp : t.params = s.params) (hr : t.regs = s.regs)
    (hf : t.flags = s.flags) (hcode : t.status.ErrCoded) (hbusy : t.status.BusyClean) : t.Inv := by
  refine ⟨hp ▸ h.legal, fun q => ?_, hcode, hbusy, hf ▸ h.orderExclusive⟩
  rw [State.reg_congr hr, State.cap_congr hp]
  exact h.regsBounded q

/-- The invariant speaks of the parameters, the registers, STATUS and FLAGS alone. -/
theorem State.Inv.congr {s t : State} (h : s.Inv) (hp : t.params = s.params) (hr : t.regs = s.regs)
    (hs : t.status = s.status) (hf : t.flags = s.flags) : t.Inv :=
  h.of_status hp hr hf (hs ▸ h.errCoded) (hs ▸ h.busyClean)

theorem State.Inv.setReg {s : State} (h : s.Inv) (r : Reg) {v : Nat} (hv : v < s.cap) : (s.setReg r v).Inv := by
  refine ⟨h.legal, fun q => ?_, h.errCoded, h.busyClean, h.orderExclusive⟩
  rw [State.reg_setReg, State.cap_congr (State.setReg_params s r v)]
  split
  · exact hv
  · exact h.regsBounded q

theorem State.Inv.advance {s : State} (h : s.Inv) : s.advance.Inv :=
  h.congr (by simp) (by simp) (by simp) (by simp)

theorem State.Inv.drop {s : State} (h : s.Inv) : s.drop.Inv :=
  h.of_status rfl rfl rfl h.errCoded h.busyClean

/-- A fault clears BUSY and writes one of the five codes (R303). -/
theorem State.Inv.raiseFault {s : State} (h : s.Inv) (f : FaultCode) : (s.raiseFault f).Inv :=
  h.of_status rfl rfl rfl ⟨nofun, fun _ => f.code_range⟩ nofun

/-- A completion without a fault clears BUSY and leaves ERR and ERRCODE (R301). -/
theorem State.Inv.completesTo {i : Instr} {s t : State} (h : s.Inv) (hc : CompletesTo i s t) : t.Inv := by
  obtain ⟨-, heq, -, hbound, horder⟩ := hc
  have hp : t.params = s.params := by rw [heq]
  have hs : t.status = { s.status with busy := false, done := true } := by rw [heq]
  exact ⟨hp ▸ h.legal, hbound h.legal h.regsBounded, hs ▸ h.errCoded, hs ▸ nofun, horder h.orderExclusive⟩

/-- Clearing ERR clears ERRCODE with it, and clearing a bit never sets DONE or ERR (R305). -/
theorem State.Inv.acknowledge {s : State} (h : s.Inv) (w : Word) : (s.acknowledge w).Inv := by
  refine h.of_status rfl rfl rfl ?_ fun hb => ?_
  · unfold Status.ErrCoded
    rw [State.acknowledge_status_err, State.acknowledge_status_errCode]
    cases w.getLsbD 2 with
    | false => simpa using h.errCoded
    | true => simp
  · obtain ⟨hdone, herr⟩ := h.busyClean hb
    simp [hdone, herr]

/-- A command is accepted only while ERR = 0, and acceptance clears DONE (R36, R304). -/
theorem State.Inv.submit {s : State} (h : s.Inv) (w : Word) : (s.submit w).Inv := by
  unfold State.submit
  split
  · exact h.drop
  · split
    · exact h.drop
    · next herr => exact h.of_status rfl rfl rfl h.errCoded fun _ => ⟨rfl, by simpa using herr⟩

/-- The power-on state of a machine with legal parameters: every register 0 and below CAP, STATUS and FLAGS clear. -/
theorem State.inv_resetWith {p : Params} (hp : p.legal) : (State.resetWith p).Inv := by
  refine ⟨hp, fun q => ?_, ⟨fun _ => rfl, nofun⟩, nofun, by simp [State.resetWith]⟩
  rw [State.reg_resetWith]
  exact Nat.pow_pos (by decide)

theorem State.Inv.softReset {s : State} (h : s.Inv) : s.softReset.Inv :=
  (State.inv_resetWith h.legal).congr rfl rfl rfl rfl

/-! ### Host accesses -/

theorem State.Inv.writeCtrl {s : State} (h : s.Inv) (w : Word) : (s.writeCtrl w).Inv := by
  unfold State.writeCtrl
  split
  · exact h.softReset
  · exact h.congr rfl rfl rfl rfl

/-- An accepted WDATA write replaces a segment below MAXSEG, so the register stays below CAP (R41). -/
theorem State.Inv.writeData {s : State} (h : s.Inv) (w : Word) : (s.writeData w).Inv := by
  unfold State.writeData
  split
  · exact h.drop
  · dsimp only
    split
    · exact h.drop.advance
    · next hidx =>
      exact (h.setReg _ (replaceSeg_lt (h.regsBounded _) (by omega) (BitVec.isLt _))).advance

theorem State.Inv.readReg {s : State} (h : s.Inv) (r : WinReg) : (s.readReg r).2.Inv := by
  rcases s.readReg_state r with hr | hr | hr <;> rw [hr]
  · exact h
  · exact h.drop
  · exact h.advance

theorem State.Inv.writeReg {s : State} (h : s.Inv) (r : WinReg) (w : Word) : (s.writeReg r w).Inv := by
  cases r with
  | ctrl => exact h.writeCtrl w
  | status => exact h.acknowledge w
  | cmd => exact h.submit w
  | wdata => exact h.writeData w
  | wsel | widx => exact h.congr rfl rfl rfl rfl
  | id | param | flags | errcmd | cmdcnt | wlen | wbits | reserved => exact h

/-- What the host has seen is no part of the invariant. -/
theorem State.Inv.withAnswer {s : State} (h : s.Inv) (v : Option (BitVec 64)) : { s with answer := v }.Inv :=
  h.congr rfl rfl rfl rfl

theorem State.Inv.access {s : State} (h : s.Inv) (a : HostAccess) : (s.access a).Inv := by
  cases a with
  | read addr width =>
    simp only [State.access]
    split_ifs
    · exact (h.readReg _).withAnswer _
    · exact h.drop.withAnswer _
    · exact h.withAnswer _
  | write addr width data =>
    simp only [State.access]
    split_ifs
    · exact (h.writeReg _ _).withAnswer _
    · exact h.drop.withAnswer _
    · exact h.withAnswer _

/-! ### Steps -/

theorem State.Inv.engineTurn {s t : State} (h : s.Inv) (hs : engineTurn s = .next t) : t.Inv := by
  rcases engineTurn_next_cases hs with rfl | ⟨f, rfl⟩ | ⟨i, hc⟩
  · exact h
  · exact h.raiseFault f
  · exact h.completesTo hc

/-- Settles O15: each turn, the engine's and the host's, keeps the invariant, and so does taking the turn off the schedule. -/
theorem stepKeepsInvariant : Obligations.StepKeepsInvariant := by
  intro s t h hs
  have hrest : ∀ rest, { s with schedule := rest }.Inv := fun _ => h.congr rfl rfl rfl rfl
  rcases step_cases s with ⟨rest, he⟩ | ⟨a, rest, ha⟩
  · exact (hrest rest).engineTurn (he ▸ hs)
  · rw [ha, Host.Outcome.next.injEq] at hs
    exact hs ▸ (hrest rest).access a

end Sys2Proof.Machine

/-! PROOF. Who writes a BigNum register (O18), and what the host window reads and writes (O16, O47 to O50, O53 to O55, O60). -/

namespace Sys2Proof.Machine

/-! ### Where an access lands -/

/-- CTRL stands at one offset (R67). -/
theorem winRegAt_eq_ctrl {o : Nat} (h : winRegAt o = .ctrl) : o = 0x008 := by
  unfold winRegAt at h
  split at h <;> cases h
  rfl

/-- WDATA stands at one offset (R67). -/
theorem winRegAt_eq_wdata {o : Nat} (h : winRegAt o = .wdata) : o = 0x028 := by
  unfold winRegAt at h
  split at h <;> cases h
  rfl

theorem State.add_sub_of_inWindow {s : State} {addr : Nat} (h : s.inWindow addr = true) :
    s.params.mmioBase + (addr - s.params.mmioBase) = addr := by
  simp only [State.inWindow, Bool.and_eq_true, decide_eq_true_eq] at h
  omega

theorem width_of_wholeWord {width : Width} {o : Nat} (h : wholeWord width o = true) : width = .w32 := by
  simp only [wholeWord, Bool.and_eq_true, beq_iff_eq] at h
  exact h.1

/-! ### The window's registers, case by case -/

/-- The auto-increment as one update of the index, modulo 65536 (R40). -/
theorem State.advance_eq (s : State) :
    s.advance =
      { s with widx := if s.ctrl.ainc = true then BitVec.ofNat 16 ((s.widx.toNat + 1) % 65536) else s.widx } := by
  have hinc : s.widx + 1#16 = BitVec.ofNat 16 ((s.widx.toNat + 1) % 65536) := by
    apply BitVec.eq_of_toNat_eq
    simp [BitVec.toNat_add]
  unfold State.advance
  rw [hinc]
  split <;> rfl

section WData

variable {s : State} {w : Word}

theorem State.writeData_of_busy (hb : s.status.busy = true) : s.writeData w = s.drop := by
  unfold State.writeData; rw [if_pos hb]

/-- Past the capacity the write is dropped, and the index still advances (R41). -/
theorem State.writeData_of_le (hb : s.status.busy = false) (hi : s.params.maxSeg ≤ s.widx.toNat) :
    s.writeData w = s.drop.advance := by
  unfold State.writeData; rw [if_neg (by simp [hb])]; exact if_pos hi

theorem State.writeData_of_lt (hb : s.status.busy = false) (hi : s.widx.toNat < s.params.maxSeg) :
    s.writeData w =
      (s.setReg s.wsel (replaceSeg (s.reg s.wsel) s.widx.toNat (w.extractLsb' 0 16).toNat)).advance := by
  unfold State.writeData; rw [if_neg (by simp [hb])]; exact if_neg (by omega)

theorem State.readReg_wdata_of_busy (hb : s.status.busy = true) : s.readReg .wdata = (0#32, s.drop) := by
  unfold State.readReg; exact if_pos hb

theorem State.readReg_wdata_of_le (hb : s.status.busy = false) (hi : s.params.maxSeg ≤ s.widx.toNat) :
    s.readReg .wdata = (0#32, s.advance) := by
  simp [State.readReg, hb, Nat.not_lt.mpr hi]

theorem State.readReg_wdata_of_lt (hb : s.status.busy = false) (hi : s.widx.toNat < s.params.maxSeg) :
    s.readReg .wdata = (BitVec.ofNat 32 (seg (s.reg s.wsel) s.widx.toNat), s.advance) := by
  simp [State.readReg, hb, hi]

end WData

theorem State.readIdle_of_busy {s : State} (v : Word) (hb : s.status.busy = true) : s.readIdle v = (0#32, s.drop) :=
  if_pos hb

theorem State.readIdle_of_idle {s : State} (v : Word) (hb : s.status.busy = false) : s.readIdle v = (v, s) :=
  if_neg (by simp [hb])

/-- A CMD write is dropped while a command is pending or a fault is not acknowledged (R36, R304). -/
theorem State.submit_of_busy_or_err {s : State} (w : Word) (h : s.status.busy = true ∨ s.status.err = true) :
    s.submit w = s.drop := by
  unfold State.submit
  split
  · rfl
  · next hb => exact if_pos (h.resolve_left hb)

/-- Otherwise its word is accepted undecoded (R36). -/
theorem State.submit_of_ready {s : State} (w : Word) (hb : s.status.busy = false) (he : s.status.err = false) :
    s.submit w =
      { s with
        pend := w, cmdCnt := s.cmdCnt + 1#32, status := { s.status with busy := true, done := false } } := by
  simp [State.submit, hb, he]

/-- Writing one of the registers without a writable field (R31, R32, R35, R37, R38, R42 to R44). -/
theorem State.hostWrite_of_ignored {s : State} {o : Nat} {w : Word} (h : o ≤ 0xFFF) (h4 : o % 4 = 0)
    (hw : s.writeReg (winRegAt o) w = s) : s.hostWrite o w = { s with answer := none } := by
  rw [State.hostWrite_eq s w h h4, hw]

theorem State.hostWrite_cmd (s : State) (w : Word) : s.hostWrite 0x014 w = { s.submit w with answer := none } :=
  State.hostWrite_eq s w (by decide) (by decide)

theorem State.hostWrite_status (s : State) (w : Word) :
    s.hostWrite 0x00C w = { s.acknowledge w with answer := none } :=
  State.hostWrite_eq s w (by decide) (by decide)

theorem State.hostWrite_wdata (s : State) (w : Word) :
    s.hostWrite 0x028 w = { s.writeData w with answer := none } :=
  State.hostWrite_eq s w (by decide) (by decide)

/-- A read whose register answers `v` and leaves `t`. -/
theorem State.hostRead_of_readReg {s t : State} {o : Nat} {v : Word} (h : o ≤ 0xFFF) (h4 : o % 4 = 0)
    (hr : s.readReg (winRegAt o) = (v, t)) : s.hostRead o = { t with answer := some (v.setWidth 64) } := by
  rw [State.hostRead_eq s h h4, hr]

/-! ### Register writers (R23, R25) -/

section RegisterWriters

variable {s : State} {w : Word} {q : Reg}

theorem State.reg_submit : (s.submit w).reg q = s.reg q := by
  unfold State.submit
  split
  · rfl
  · split <;> rfl

/-- WDATA changes a register only when the write is accepted, and only the one WSEL shows (R41). -/
theorem State.of_reg_writeData_ne (h : (s.writeData w).reg q ≠ s.reg q) :
    s.status.busy = false ∧ s.widx.toNat < s.params.maxSeg ∧ q = s.wsel := by
  cases hb : s.status.busy with
  | true => rw [State.writeData_of_busy hb] at h; exact absurd rfl h
  | false =>
    by_cases hi : s.widx.toNat < s.params.maxSeg
    · refine ⟨rfl, hi, ?_⟩
      by_contra hq
      rw [State.writeData_of_lt hb hi, State.reg_advance, State.reg_setReg_of_ne _ _ (Ne.symm hq)] at h
      exact h rfl
    · rw [State.writeData_of_le hb (by omega), State.reg_advance] at h
      exact absurd rfl h

/-- CTRL changes a register only by a soft reset (R33, R341). -/
theorem State.of_reg_writeCtrl_ne (h : (s.writeCtrl w).reg q ≠ s.reg q) :
    w.getLsbD 0 = true ∧ (s.writeCtrl w).reg q = 0 := by
  unfold State.writeCtrl at h ⊢
  split at h
  · next hrst => exact ⟨hrst, by rw [if_pos hrst, State.reg_softReset]⟩
  · exact absurd rfl h

/-- WDATA and CTRL are the only window registers whose write changes a BigNum register. -/
theorem State.of_reg_writeReg_ne {r : WinReg} (h : (s.writeReg r w).reg q ≠ s.reg q) : r = .wdata ∨ r = .ctrl := by
  cases r with
  | wdata => exact Or.inl rfl
  | ctrl => exact Or.inr rfl
  | cmd => exact absurd State.reg_submit h
  | id | param | status | flags | errcmd | cmdcnt | wsel | widx | wlen | wbits | reserved => exact absurd rfl h

/-- Only an aligned 32-bit write of WDATA or CTRL changes a register (R23, R62). -/
theorem State.of_reg_access_ne {a : HostAccess} (h : (s.access a).reg q ≠ s.reg q) :
    (∃ d, a = .write (s.params.mmioBase + 0x028) .w32 d ∧ s.status.busy = false ∧
      s.widx.toNat < s.params.maxSeg ∧ q = s.wsel) ∨
    (∃ d, a = .write (s.params.mmioBase + 0x008) .w32 d ∧ d.getLsbD 0 = true ∧ (s.access a).reg q = 0) := by
  cases a with
  | read addr width =>
    refine absurd ?_ h
    simp only [State.access]
    split_ifs
    · exact State.reg_congr (s.readReg_regs _) q
    · rfl
    · rfl
  | write addr width data =>
    by_cases hin : s.inWindow addr = true
    · by_cases hword : wholeWord width (addr - s.params.mmioBase) = true
      · have hacc : (s.access (.write addr width data)).reg q =
            (s.writeReg (winRegAt (addr - s.params.mmioBase)) (data.setWidth 32)).reg q := by
          simp only [State.access, if_pos hin, if_pos hword]
          rfl
        have haddr := State.add_sub_of_inWindow hin
        rw [hacc] at h ⊢
        rw [width_of_wholeWord hword]
        rcases State.of_reg_writeReg_ne h with hr | hr <;> rw [hr] at h ⊢
        · rw [winRegAt_eq_wdata hr] at haddr
          exact Or.inl ⟨data, by rw [haddr], State.of_reg_writeData_ne h⟩
        · rw [winRegAt_eq_ctrl hr] at haddr
          obtain ⟨hrst, hzero⟩ := State.of_reg_writeCtrl_ne h
          exact Or.inr ⟨data, by rw [haddr], by simpa using hrst, hzero⟩
      · simp only [State.access, if_pos hin, if_neg hword] at h
        exact absurd rfl h
    · simp only [State.access, if_neg hin] at h
      exact absurd rfl h

/-- The engine changes a register only by completing a command that names it as a destination (R25). -/
theorem of_reg_engineTurn_ne {t : State} (hs : engineTurn s = .next t) (h : t.reg q ≠ s.reg q) :
    s.status.busy = true ∧ ∃ i, decodeWord s.pend = .ok i ∧ q ∈ i.destinations := by
  rcases engineTurn_cases s with ⟨-, hu⟩ | ⟨-, f, hu⟩ | ⟨hb, i, u, hd, hu, hreg, -⟩ <;>
    rw [hs, Host.Outcome.next.injEq] at hu <;> subst hu
  · exact absurd rfl h
  · exact absurd rfl h
  · exact ⟨hb, i, hd, by_contra fun hq => h (hreg q hq)⟩

end RegisterWriters

/-- Settles O18: the turn is the engine's or the host's, and each has its own writers. -/
theorem registerWriters : Obligations.RegisterWriters := by
  intro s t q hs hq
  rcases hsched : s.schedule with _ | ⟨a | _, rest⟩
  · rw [step_engine hsched] at hs
    exact Or.inl ⟨nofun, of_reg_engineTurn_ne hs hq⟩
  · rw [step_host hsched, Host.Outcome.next.injEq] at hs
    subst hs
    rcases State.of_reg_access_ne (s := { s with schedule := rest }) hq with ⟨d, rfl, hw⟩ | ⟨d, rfl, hw⟩
    · exact Or.inr (Or.inl ⟨d, rest, rfl, hw⟩)
    · exact Or.inr (Or.inr ⟨d, rest, rfl, hw⟩)
  · rw [step_engine_scheduled hsched] at hs
    exact Or.inl ⟨nofun, of_reg_engineTurn_ne (s := { s with schedule := rest }) hs hq⟩

/-! ### CMD, WDATA, WLEN and WBITS -/

/-- Settles O50: the write is dropped or accepted, as the two cases of `submit` say. -/
theorem cmdWrite : Obligations.CmdWrite := by
  intro s w
  refine ⟨State.hostRead_of_readReg (o := 0x014) (by decide) (by decide) rfl, ?_⟩
  rw [State.hostWrite_cmd]
  split
  · next h => rw [State.submit_of_busy_or_err w h]; rfl
  · next h =>
    obtain ⟨hb, he⟩ := not_or.mp h
    rw [State.submit_of_ready w (eq_false_of_ne_true hb) (eq_false_of_ne_true he)]

theorem toNat_extract_low16 (w : Word) : (w.extractLsb' 0 16).toNat = w.toNat % 65536 := by
  simp [BitVec.extractLsb'_toNat]

/-- A segment on the bus (R63). -/
theorem setWidth_ofNat_of_lt {n : Nat} (h : n < 2 ^ 32) : (BitVec.ofNat 32 n).setWidth 64 = BitVec.ofNat 64 n := by
  apply BitVec.eq_of_toNat_eq
  rw [BitVec.toNat_setWidth, BitVec.toNat_ofNat, BitVec.toNat_ofNat, Nat.mod_eq_of_lt h]

theorem replaceSeg_eq (v i w : Nat) :
    replaceSeg v i w = v - v / 65536 ^ i % 65536 * 65536 ^ i + w * 65536 ^ i := by
  rw [replaceSeg, seg_eq]

/-- Settles O54: busy, past the capacity, in range; each with the read's and the write's equation. -/
theorem wdataAccess : Obligations.WdataAccess := by
  intro s w
  have hread : ∀ {v t}, s.readReg .wdata = (v, t) → s.hostRead 0x028 = { t with answer := some (v.setWidth 64) } :=
    fun h => State.hostRead_of_readReg (o := 0x028) (by decide) (by decide) h
  dsimp only
  rw [State.hostWrite_wdata]
  split
  · next hb => exact ⟨hread (State.readReg_wdata_of_busy hb), by rw [State.writeData_of_busy hb]; rfl⟩
  · next hb =>
    rw [Bool.not_eq_true] at hb
    split
    · next hi =>
      rw [hread (State.readReg_wdata_of_le hb hi), State.writeData_of_le hb hi, State.advance_eq, State.advance_eq]
      exact ⟨rfl, rfl⟩
    · next hi =>
      rw [Nat.not_le] at hi
      have hseg : seg (s.reg s.wsel) s.widx.toNat < 2 ^ 32 := lt_trans (seg_lt _ _) (by norm_num)
      rw [hread (State.readReg_wdata_of_lt hb hi), State.writeData_of_lt hb hi, setWidth_ofNat_of_lt hseg, seg_eq]
      refine ⟨by rw [State.advance_eq], _, rfl, by rw [State.advance_eq]; rfl, fun q => ?_⟩
      rw [← replaceSeg_eq, ← toNat_extract_low16]
      show (State.advance _).reg q = _
      rw [State.reg_advance, State.reg_setReg]
      simp only [eq_comm (a := s.wsel)]

/-- On a legal machine the shown register's bit length fits a window word (R43). -/
theorem State.Inv.bitlen_lt {s : State} (h : s.Inv) (q : Reg) : bitlen (s.reg q) < 2 ^ 32 := by
  have hreg := h.regsBounded q
  rw [State.cap_eq_two_pow, ← bitlen_le_iff, State.capBits] at hreg
  have hmax := h.legal.2.1
  omega

theorem State.Inv.len_lt {s : State} (h : s.Inv) (q : Reg) : len (s.reg q) < 2 ^ 32 := by
  have := h.bitlen_lt q
  rw [len_eq_bitlen]
  omega

/-- Settles O55: `len` and `bitlen` are the least bounds, and on a legal machine they fit the word read. -/
theorem wlenWbitsReads : Obligations.WlenWbitsReads := by
  intro s h
  refine ⟨fun w => ⟨State.hostWrite_of_ignored (by decide) (by decide) rfl,
    State.hostWrite_of_ignored (by decide) (by decide) rfl⟩, ?_⟩
  split
  · next hb =>
    exact ⟨State.hostRead_of_readReg (o := 0x02C) (by decide) (by decide) (State.readIdle_of_busy _ hb),
      State.hostRead_of_readReg (o := 0x030) (by decide) (by decide) (State.readIdle_of_busy _ hb)⟩
  · next hb =>
    rw [Bool.not_eq_true] at hb
    refine ⟨len (s.reg s.wsel), bitlen (s.reg s.wsel), ?_, ?_, h.len_lt _, h.bitlen_lt _,
      fun k => (len_le_iff _ k).symm, fun k => (bitlen_le_iff _ k).symm⟩
    · rw [← setWidth_ofNat_of_lt (h.len_lt _)]
      exact State.hostRead_of_readReg (by decide) (by decide) (State.readIdle_of_idle _ hb)
    · rw [← setWidth_ofNat_of_lt (h.bitlen_lt _)]
      exact State.hostRead_of_readReg (by decide) (by decide) (State.readIdle_of_idle _ hb)

/-! ### The interrupt line -/

/-- Every completion, with a fault or without, leaves DONE = 1 and CTRL as it was (R301, R303). -/
theorem exec_next_done_ctrl {i : Instr} {s t : State} (h : exec i s = .next t) :
    t.status.done = true ∧ t.ctrl = s.ctrl := by
  rcases exec_next_cases h with ⟨f, rfl⟩ | ⟨-, heq, -⟩
  · exact ⟨rfl, rfl⟩
  · rw [heq]; exact ⟨rfl, rfl⟩

/-- Settles O60: each operation's effect on DONE, ERR and IE decides the line. -/
theorem interruptLine : Obligations.InterruptLine := by
  intro s
  refine ⟨by simp [State.irq], fun i t h => ?_, fun w hb he => ?_, ?_, rfl⟩
  · obtain ⟨hdone, hctrl⟩ := exec_next_done_ctrl h
    simp [State.irq, hdone, hctrl]
  · rw [State.hostWrite_cmd, State.submit_of_ready w hb he]
    simp [State.irq, he]
  · rw [State.hostWrite_status]
    simp [State.irq]

/-! ### Reset, layouts, and the registers without side effects -/

/-- Settles O16: `State.reset` is the reset state of the reference parameters, which are legal. -/
theorem resetMeetsInvariant : Obligations.ResetMeetsInvariant :=
  ⟨State.inv_resetWith (by decide), fun _ hp => State.inv_resetWith hp⟩

theorem Ctrl.getLsbD_word (c : Ctrl) (k : Nat) :
    c.word.getLsbD k = if k = 1 then c.ie else if k = 2 then c.ainc else false := by
  unfold Ctrl.word bit1
  show BitVec.getLsbD (w := 29 + 1 + 1 + 1) _ k = _
  simp only [BitVec.getLsbD_append, BitVec.getLsbD_ofBool]
  rcases k with _ | _ | _ | k <;> simp

theorem Status.getLsbD_word (u : Status) (k : Nat) :
    u.word.getLsbD k =
      if k = 0 then u.busy else if k = 1 then u.done else if k = 2 then u.err else if k = 3 then u.ovr
      else if k < 8 then false else u.errCode.getLsbD (k - 8) := by
  unfold Status.word bit1
  show BitVec.getLsbD (w := 16 + 8 + 4 + 1 + 1 + 1 + 1) _ k = _
  simp only [BitVec.getLsbD_append, BitVec.getLsbD_ofBool]
  by_cases h8 : k < 8
  · interval_cases k <;> simp
  · simp (disch := omega) only [if_neg]
    split
    · rfl
    · rw [BitVec.getLsbD_zero, BitVec.getLsbD_of_ge _ _ (by omega)]

theorem Flags.getLsbD_word (f : Flags) (k : Nat) :
    f.word.getLsbD k =
      if k = 0 then f.z else if k = 1 then f.lt else if k = 2 then f.eq else if k = 3 then f.gt
      else if k = 4 then f.b else false := by
  unfold Flags.word bit1
  show BitVec.getLsbD (w := 27 + 1 + 1 + 1 + 1 + 1) _ k = _
  simp only [BitVec.getLsbD_append, BitVec.getLsbD_ofBool]
  rcases k with _ | _ | _ | _ | _ | k <;> simp

/-- Settles O47: each word's bit `k` as a chain of cases, read off at the bits the rules name. -/
theorem registerWordLayouts : Obligations.RegisterWordLayouts := by
  refine ⟨fun c => ?_, fun u => ?_, fun f => ?_⟩
  · simp only [Ctrl.getLsbD_word]
    refine ⟨rfl, rfl, rfl, fun k hk => ?_⟩
    rw [if_neg (by omega), if_neg (by omega)]
  · simp only [Status.getLsbD_word]
    refine ⟨rfl, rfl, rfl, rfl, fun k h4 h8 => ?_, fun k hk => ?_, fun k hk => ?_⟩
    · repeat rw [if_neg (by omega)]
      exact if_pos h8
    · repeat rw [if_neg (by omega)]
      rw [Nat.add_sub_cancel_left]
    · repeat rw [if_neg (by omega)]
      exact BitVec.getLsbD_of_ge _ _ (by omega)
  · simp only [Flags.getLsbD_word]
    refine ⟨rfl, rfl, rfl, rfl, rfl, fun k hk => ?_⟩
    repeat rw [if_neg (by omega)]

/-- WSEL as read (R39). -/
theorem State.readReg_wsel (s : State) : s.readReg .wsel = (BitVec.ofNat 32 s.wsel.val, s) := by
  have hword : (0#28 ++ regBits s.wsel : Word) = BitVec.ofNat 32 s.wsel.val := by
    apply BitVec.eq_of_toNat_eq
    rw [BitVec.toNat_ofNat, Nat.mod_eq_of_lt (by omega)]
    exact (BitVec.toNat_append 0#28 (regBits s.wsel)).trans (by simp [regBits])
  exact congrArg (·, s) hword

/-- WIDX as read (R40). -/
theorem State.readReg_widx (s : State) : s.readReg .widx = (s.widx.setWidth 32, s) := by
  have hword : (0#16 ++ s.widx : Word) = s.widx.setWidth 32 := by
    apply BitVec.eq_of_toNat_eq
    rw [BitVec.toNat_setWidth_of_le (by decide)]
    exact (BitVec.toNat_append 0#16 s.widx).trans (by simp)
  exact congrArg (·, s) hword

/-- Settles O48: each register's read answers its word and leaves the state. -/
theorem plainReads : Obligations.PlainReads := by
  intro s o w h
  have key : ∀ {o v}, o ≤ 0xFFF → o % 4 = 0 → s.readReg (winRegAt o) = (v, s) →
      s.hostRead o = { s with answer := some (v.setWidth 64) } := State.hostRead_of_readReg
  rcases h with h | ⟨hlo, hhi, h4, rfl⟩
  · simp only [List.mem_cons, List.not_mem_nil, or_false, Prod.mk.injEq] at h
    rcases h with ⟨rfl, rfl⟩ | ⟨rfl, rfl⟩ | ⟨rfl, rfl⟩ | ⟨rfl, rfl⟩ | ⟨rfl, rfl⟩ | ⟨rfl, rfl⟩ | ⟨rfl, rfl⟩ |
      ⟨rfl, rfl⟩ | ⟨rfl, rfl⟩ | ⟨rfl, rfl⟩
    all_goals refine key (by decide) (by decide) ?_
    iterate 8 exact rfl
    · exact s.readReg_wsel
    · exact s.readReg_widx
  · exact key (by omega) h4 (by rw [winRegAt_reserved hlo]; rfl)

/-- Settles O49: none of these registers has a field a write stores. -/
theorem ignoredWrites : Obligations.IgnoredWrites := by
  intro s o w h
  rcases h with h | ⟨hlo, hhi, h4⟩
  · simp only [List.mem_cons, List.not_mem_nil, or_false] at h
    rcases h with rfl | rfl | rfl | rfl | rfl | rfl | rfl <;>
      exact State.hostWrite_of_ignored (by decide) (by decide) rfl
  · exact State.hostWrite_of_ignored (by omega) h4 (by rw [winRegAt_reserved hlo]; rfl)

theorem regField_zero_val (w : Word) : (regField w 0).val = w.toNat % 16 := by
  simp [regField]

/-- Settles O53: the field stored is the word's low 4 or low 16 bits. -/
theorem wselWidxWrites : Obligations.WselWidxWrites := by
  intro s w
  rw [State.hostWrite_eq s (o := 0x020) w (by decide) (by decide),
    State.hostWrite_eq s (o := 0x024) w (by decide) (by decide)]
  exact ⟨⟨_, rfl, regField_zero_val w, rfl⟩, ⟨_, rfl, toNat_extract_low16 w, rfl⟩⟩

end Sys2Proof.Machine

/-! PROOF. Which host accesses reach the engine, and how a word stands in the byte lanes of the bus (O57 to O59). -/

namespace Sys2Proof.Machine

/-! ### In the window and outside it (R61, R62) -/

section Accesses

variable {s : State} {o addr : Nat} {width : Width}

theorem State.inWindow_iff :
    s.inWindow addr = true ↔ s.params.mmioBase ≤ addr ∧ addr ≤ s.params.mmioBase + 0xFFF := by
  rw [State.inWindow, Bool.and_eq_true, decide_eq_true_iff, decide_eq_true_iff, Config.windowBytes]
  omega

theorem State.inWindow_base_add (h : o ≤ 0xFFF) : s.inWindow (s.params.mmioBase + o) = true := by
  rw [State.inWindow_iff]
  omega

theorem State.not_inWindow (h : addr < s.params.mmioBase ∨ s.params.mmioBase + 0xFFF < addr) :
    ¬ s.inWindow addr = true := by
  rw [State.inWindow_iff]
  omega

theorem not_wholeWord (h : width ≠ .w32 ∨ o % 4 ≠ 0) : ¬ wholeWord width o = true := by
  simpa [wholeWord, imp_iff_not_or] using h

/-- An aligned 32-bit write hands its register the four lower lanes, whatever stands in the upper ones. -/
theorem State.access_write_aligned (d : BitVec 64) (h : o ≤ 0xFFF) (h4 : o % 4 = 0) :
    s.access (.write (s.params.mmioBase + o) .w32 d) =
      { s.writeReg (winRegAt o) (d.setWidth 32) with answer := none } := by
  simp only [State.access, if_pos (State.inWindow_base_add h), Nat.add_sub_cancel_left]
  exact if_pos (by simp [wholeWord, h4])

end Accesses

/-- Settles O57: the access reaches the window, and its shape is not the one defined there. -/
theorem oddAccessesDropped : Obligations.OddAccessesDropped := by
  intro s o width d h hodd
  simp only [State.access, if_pos (State.inWindow_base_add h), Nat.add_sub_cancel_left, if_neg (not_wholeWord hodd)]
  exact ⟨rfl, rfl⟩

/-- Settles O58: no address below the window or above it is one of its 4096. -/
theorem outsideAccessesIgnored : Obligations.OutsideAccessesIgnored := by
  intro s addr width d h
  exact ⟨if_neg (State.not_inWindow h), if_neg (State.not_inWindow h)⟩

/-! ### Byte lanes (R63) -/

theorem getLsbD_lane (v : BitVec 64) (k : Nat) {j : Nat} (hj : j < 8) :
    (lane v k).getLsbD j = v.getLsbD (8 * k + j) := by
  simp [lane, hj]

/-- The four lower lanes of a bus number are the four bytes of its low word. -/
theorem setWidth_eq_of_lanes {d : BitVec 64} {w : Word}
    (h : ∀ k j, k < 4 → j < 8 → (lane d k).getLsbD j = w.getLsbD (8 * k + j)) : d.setWidth 32 = w := by
  apply BitVec.eq_of_getLsbD_eq
  intro i hi
  have hbit := h (i / 8) (i % 8) (by omega) (by omega)
  rw [getLsbD_lane d _ (by omega), Nat.div_add_mod] at hbit
  rw [BitVec.getLsbD_setWidth, hbit, decide_eq_true hi, Bool.true_and]

/-- Settles O59: a read answers the word extended to the bus, and a write stores the word its four lower lanes make. -/
theorem byteLanesLittleEndian : Obligations.ByteLanesLittleEndian := by
  intro s o h h4
  constructor
  · refine ⟨_, congrArg State.answer (State.hostRead_eq s h h4), fun k j hk hj => ?_⟩
    rw [getLsbD_lane _ k hj, BitVec.getLsbD_setWidth, decide_eq_true (by omega), Bool.true_and]
  · intro d w hlanes
    rw [State.access_write_aligned d h h4, setWidth_eq_of_lanes hlanes]

end Sys2Proof.Machine

/-! PROOF. The decoder and the encoder are inverse to each other, and the words that are no command (O1 to O5). -/

namespace Sys2Proof

/-! ### The rows of the opcode table (R109) -/

/-- The must-be-zero bits of a row: those in its mask that the opcode does not fix (R111). -/
def Row.mbz (r : Row) : Word := r.mask &&& 0x00FFFFFF#32

/-- One command of each kind, in the order of R109. -/
def oneOfEachKind : List Instr :=
  [.nop, .clr 0, .ldi 0 0, .mov 0 0, .add 0 0 0, .sub 0 0 0, .mul 0 0 0, .muli 0 0 0, .mulmod 0 0 0 0, .div 0 0 0,
    .mod 0 0 0, .divmod 0 0 0 0, .shl 0 0 0, .shr 0 0 0, .shlv 0 0 0, .shrv 0 0 0, .testbit 0 0, .setbit 0 0 0,
    .bitlen 0 0, .cmp 0 0, .expmod 0 0 0 0, .egcd 0 0 0 0 0, .modinv 0 0 0, .mrw 0 0, .mrtest 0 0]

theorem opcodeTable_eq_map_row : opcodeTable = oneOfEachKind.map Instr.row := rfl

theorem exists_row_eq {r : Row} (h : r ∈ opcodeTable) : ∃ i : Instr, i.row = r := by
  rw [opcodeTable_eq_map_row, List.mem_map] at h
  obtain ⟨i, -, hi⟩ := h
  exact ⟨i, hi⟩

theorem row_mem_opcodeTable (i : Instr) : i.row ∈ opcodeTable := by
  cases i <;> simp [opcodeTable, Instr.row]

/-- No opcode stands in two rows (R108). -/
theorem nodup_opcodes : (opcodeTable.map fun r => opcodeOf r.pattern).Nodup := by decide

/-- A row is known by its opcode. -/
theorem row_eq_of_opcode_eq {r r' : Row} (hr : r ∈ opcodeTable) (hr' : r' ∈ opcodeTable)
    (h : opcodeOf r.pattern = opcodeOf r'.pattern) : r = r' :=
  List.inj_on_of_nodup_map nodup_opcodes hr hr' h

/-- In every row the mask takes the whole opcode, and the pattern is the opcode alone (R109). -/
theorem mask_pattern_of_mem {r : Row} (h : r ∈ opcodeTable) :
    r.mask &&& 0xFF000000#32 = 0xFF000000#32 ∧ r.pattern &&& 0xFF000000#32 = r.pattern := by
  revert r; decide

theorem and_opcodeMask (w : Word) : w &&& 0xFF000000#32 = (opcodeOf w ++ 0#24 : Word) := by
  apply BitVec.eq_of_getLsbD_eq
  intro k hk
  show _ = BitVec.getLsbD (w := 8 + 24) _ k
  rw [BitVec.getLsbD_append, opcodeOf, BitVec.getLsbD_extractLsb', BitVec.getLsbD_and]
  interval_cases k <;> simp

theorem opcodeOf_eq_iff (v w : Word) : opcodeOf v = opcodeOf w ↔ v &&& 0xFF000000#32 = w &&& 0xFF000000#32 := by
  rw [and_opcodeMask, and_opcodeMask]
  exact (BitVec.append_left_inj _).symm

/-- A word selects a row when it has the row's opcode and the row's must-be-zero bits are zero in it (R109, R111): the two
halves of the mask. -/
theorem selects_iff {r : Row} (hr : r ∈ opcodeTable) (w : Word) :
    r.selects w = true ↔ opcodeOf w = opcodeOf r.pattern ∧ w &&& r.mbz = 0#32 := by
  obtain ⟨hmask, hpattern⟩ := mask_pattern_of_mem hr
  rw [Row.selects, beq_iff_eq, opcodeOf_eq_iff, hpattern, Row.mbz]
  constructor
  · intro h
    constructor
    · rw [← hmask, ← BitVec.and_assoc, h, hpattern]
    · rw [← BitVec.and_assoc, h, ← hpattern, BitVec.and_assoc]
      exact BitVec.and_zero
  · rintro ⟨hop, hz⟩
    calc w &&& r.mask = w &&& r.mask &&& (0xFF000000#32 ||| 0x00FFFFFF#32) := BitVec.and_allOnes.symm
      _ = w &&& (r.mask &&& 0xFF000000#32) ||| w &&& (r.mask &&& 0x00FFFFFF#32) := by
        rw [BitVec.and_or_distrib_left, BitVec.and_assoc, BitVec.and_assoc]
      _ = r.pattern := by rw [hmask, hop, hz, BitVec.or_zero]

/-! ### What the decoder reads from a word of a given opcode (R101 to R105) -/

/-- The command of the same kind whose operands stand in the fields of `w`. -/
def Instr.withFieldsOf (w : Word) : Instr → Instr
  | .nop => .nop
  | .clr _ => .clr (regField w 20)
  | .ldi _ _ => .ldi (regField w 20) (immField w)
  | .mov _ _ => .mov (regField w 20) (regField w 16)
  | .add _ _ _ => .add (regField w 20) (regField w 16) (regField w 12)
  | .sub _ _ _ => .sub (regField w 20) (regField w 16) (regField w 12)
  | .mul _ _ _ => .mul (regField w 20) (regField w 16) (regField w 12)
  | .muli _ _ _ => .muli (regField w 20) (regField w 16) (immField w)
  | .mulmod _ _ _ _ => .mulmod (regField w 20) (regField w 16) (regField w 12) (regField w 8)
  | .div _ _ _ => .div (regField w 20) (regField w 16) (regField w 12)
  | .mod _ _ _ => .mod (regField w 20) (regField w 16) (regField w 12)
  | .divmod _ _ _ _ => .divmod (regField w 20) (regField w 8) (regField w 16) (regField w 12)
  | .shl _ _ _ => .shl (regField w 20) (regField w 16) (immField w)
  | .shr _ _ _ => .shr (regField w 20) (regField w 16) (immField w)
  | .shlv _ _ _ => .shlv (regField w 20) (regField w 16) (regField w 12)
  | .shrv _ _ _ => .shrv (regField w 20) (regField w 16) (regField w 12)
  | .testbit _ _ => .testbit (regField w 16) (immField w)
  | .setbit _ _ _ => .setbit (regField w 20) (regField w 16) (immField w)
  | .bitlen _ _ => .bitlen (regField w 20) (regField w 16)
  | .cmp _ _ => .cmp (regField w 16) (regField w 12)
  | .expmod _ _ _ _ => .expmod (regField w 20) (regField w 16) (regField w 12) (regField w 8)
  | .egcd _ _ _ _ _ => .egcd (regField w 20) (regField w 8) (regField w 4) (regField w 16) (regField w 12)
  | .modinv _ _ _ => .modinv (regField w 20) (regField w 16) (regField w 12)
  | .mrw _ _ => .mrw (regField w 16) (regField w 12)
  | .mrtest _ _ => .mrtest (regField w 16) (immField w)

@[simp] theorem row_withFieldsOf (i : Instr) (w : Word) : (i.withFieldsOf w).row = i.row := by
  cases i <;> rfl

/-- The decoder on a word with an assigned opcode: the opcode picks the row, and the fields give the operands. -/
theorem decodeWord_of_opcode {i : Instr} {w : Word} (h : opcodeOf w = opcodeOf i.row.pattern) :
    decodeWord w = accept w i.row.mbz (i.withFieldsOf w) := by
  unfold decodeWord
  rw [h]
  cases i <;> simp only [Instr.row, opcodeOf, BitVec.reduceExtractLsb'] <;> rfl

/-- The decoder on a word with an unassigned opcode (R110). -/
theorem decodeWord_of_unassigned {w : Word} (h : ∀ i : Instr, opcodeOf w ≠ opcodeOf i.row.pattern) :
    decodeWord w = .error .unassignedOpcode := by
  unfold decodeWord
  have hmem : opcodeOf w ∉ oneOfEachKind.map fun i => opcodeOf i.row.pattern := by
    rw [List.mem_map]
    rintro ⟨i, -, hi⟩
    exact h i hi.symm
  split
  case h_26 => rfl
  all_goals next hop => exact absurd (hop ▸ by decide) hmem

/-- The command a word decodes to is that of its fields, its must-be-zero bits are zero and its destinations are distinct. -/
theorem decodeWord_ok {w : Word} {i : Instr} (h : decodeWord w = .ok i) :
    opcodeOf w = opcodeOf i.row.pattern ∧ w &&& i.row.mbz = 0#32 ∧ i.WellFormed ∧ i.withFieldsOf w = i := by
  by_cases hop : ∃ k : Instr, opcodeOf w = opcodeOf k.row.pattern
  · obtain ⟨k, hk⟩ := hop
    obtain ⟨rfl, hz, hwf⟩ := accept_ok ((decodeWord_of_opcode hk).symm.trans h)
    refine ⟨by rwa [row_withFieldsOf], by rwa [row_withFieldsOf], hwf, ?_⟩
    cases k <;> rfl
  · rw [decodeWord_of_unassigned (not_exists.mp hop)] at h
    cases h

/-! ### The fields of an encoded word (R123) -/

/-- The word of a command selects the command's row. -/
theorem selects_encode (i : Instr) : i.row.selects (encode i) = true := by
  cases i with
  | nop => exact Laws.InRow.nop
  | clr rd => exact Laws.InRow.clr rd
  | ldi rd imm => exact Laws.InRow.ldi rd imm
  | mov rd rs1 => exact Laws.InRow.mov rd rs1
  | add rd rs1 rs2 => exact Laws.InRow.add rd rs1 rs2
  | sub rd rs1 rs2 => exact Laws.InRow.sub rd rs1 rs2
  | mul rd rs1 rs2 => exact Laws.InRow.mul rd rs1 rs2
  | muli rd rs1 imm => exact Laws.InRow.muli rd rs1 imm
  | mulmod rd rs1 rs2 rs3 => exact Laws.InRow.mulmod rd rs1 rs2 rs3
  | div rd rs1 rs2 => exact Laws.InRow.div rd rs1 rs2
  | mod rd rs1 rs2 => exact Laws.InRow.mod rd rs1 rs2
  | divmod rd rr rs1 rs2 => exact Laws.InRow.divmod rd rr rs1 rs2
  | shl rd rs1 imm => exact Laws.InRow.shl rd rs1 imm
  | shr rd rs1 imm => exact Laws.InRow.shr rd rs1 imm
  | shlv rd rs1 rs2 => exact Laws.InRow.shlv rd rs1 rs2
  | shrv rd rs1 rs2 => exact Laws.InRow.shrv rd rs1 rs2
  | testbit rs1 imm => exact Laws.InRow.testbit rs1 imm
  | setbit rd rs1 imm => exact Laws.InRow.setbit rd rs1 imm
  | bitlen rd rs1 => exact Laws.InRow.bitlen rd rs1
  | cmp rs1 rs2 => exact Laws.InRow.cmp rs1 rs2
  | expmod rd rs1 rs2 rs3 => exact Laws.InRow.expmod rd rs1 rs2 rs3
  | egcd rd rx ry rs1 rs2 => exact Laws.InRow.egcd rd rx ry rs1 rs2
  | modinv rd rs1 rs2 => exact Laws.InRow.modinv rd rs1 rs2
  | mrw rs1 rs2 => exact Laws.InRow.mrw rs1 rs2
  | mrtest rs1 imm => exact Laws.InRow.mrtest rs1 imm

/-- The encoder puts each operand in the field the decoder reads it from (R123). -/
theorem withFieldsOf_encode (i : Instr) : i.withFieldsOf (encode i) = i := by
  cases i <;>
    simp only [Instr.withFieldsOf, encode, regField_packRegs_rd, regField_packRegs_rs1, regField_packRegs_rs2,
      regField_packRegs_f11, regField_packRegs_f7, regField_packImm_rd, regField_packImm_rs1, immField_packImm]

/-! ### The layouts, each the word of its own fields when the bits it leaves out are zero (R102 to R105) -/

section Layouts

variable {op : BitVec 8} {w : Word}

theorem packRegs_eq_self {m : Word} (hop : opcodeOf w = op) (hz : w &&& m = 0#32) (hm : m.extractLsb' 0 4 = 0xF#4) :
    packRegs op (regField w 20) (regField w 16) (regField w 12) (regField w 8) (regField w 4) = w :=
  hop ▸ packRegs_fields hz hm

theorem packRegs_eq_self_four (hop : opcodeOf w = op) (hz : w &&& 0x000000FF#32 = 0#32) :
    packRegs op (regField w 20) (regField w 16) (regField w 12) (regField w 8) 0 = w := by
  simpa (disch := decide) only [regField_eq_zero hz] using packRegs_eq_self hop hz (by decide)

theorem packRegs_eq_self_three (hop : opcodeOf w = op) (hz : w &&& 0x00000FFF#32 = 0#32) :
    packRegs op (regField w 20) (regField w 16) (regField w 12) 0 0 = w := by
  simpa (disch := decide) only [regField_eq_zero hz] using packRegs_eq_self hop hz (by decide)

theorem packRegs_eq_self_two (hop : opcodeOf w = op) (hz : w &&& 0x0000FFFF#32 = 0#32) :
    packRegs op (regField w 20) (regField w 16) 0 0 0 = w := by
  simpa (disch := decide) only [regField_eq_zero hz] using packRegs_eq_self hop hz (by decide)

theorem packRegs_eq_self_one (hop : opcodeOf w = op) (hz : w &&& 0x000FFFFF#32 = 0#32) :
    packRegs op (regField w 20) 0 0 0 0 = w := by
  simpa (disch := decide) only [regField_eq_zero hz] using packRegs_eq_self hop hz (by decide)

theorem packRegs_eq_self_none (hop : opcodeOf w = op) (hz : w &&& 0x00FFFFFF#32 = 0#32) :
    packRegs op 0 0 0 0 0 = w := by
  simpa (disch := decide) only [regField_eq_zero hz] using packRegs_eq_self hop hz (by decide)

theorem packRegs_eq_self_sources (hop : opcodeOf w = op) (hz : w &&& 0x00F00FFF#32 = 0#32) :
    packRegs op 0 (regField w 16) (regField w 12) 0 0 = w := by
  simpa (disch := decide) only [regField_eq_zero hz] using packRegs_eq_self hop hz (by decide)

theorem packImm_eq_self (hop : opcodeOf w = op) : packImm op (regField w 20) (regField w 16) (immField w) = w :=
  hop ▸ packImm_fields w

theorem packImm_eq_self_rd (hop : opcodeOf w = op) (hz : w &&& 0x000F0000#32 = 0#32) :
    packImm op (regField w 20) 0 (immField w) = w := by
  simpa (disch := decide) only [regField_eq_zero hz] using packImm_eq_self hop

theorem packImm_eq_self_rs1 (hop : opcodeOf w = op) (hz : w &&& 0x00F00000#32 = 0#32) :
    packImm op 0 (regField w 16) (immField w) = w := by
  simpa (disch := decide) only [regField_eq_zero hz] using packImm_eq_self hop

end Layouts

/-- A word whose must-be-zero bits are zero is the word of the command its fields give: the fields the command does not
use are 0 in it. -/
theorem encode_withFieldsOf {i : Instr} {w : Word} (hop : opcodeOf w = opcodeOf i.row.pattern)
    (hz : w &&& i.row.mbz = 0#32) : encode (i.withFieldsOf w) = w := by
  -- A row free of the command's operands is a closed term, so its opcode and its must-be-zero bits evaluate.
  generalize hrow : i.row = r at hop hz
  cases i <;> (simp only [Instr.row] at hrow; subst hrow)
  case nop => exact packRegs_eq_self_none hop hz
  case clr => exact packRegs_eq_self_one hop hz
  case mov | bitlen => exact packRegs_eq_self_two hop hz
  case add | sub | mul | div | mod | shlv | shrv | modinv => exact packRegs_eq_self_three hop hz
  case mulmod | divmod | expmod => exact packRegs_eq_self_four hop hz
  case egcd => exact packRegs_eq_self hop hz (by decide)
  case cmp | mrw => exact packRegs_eq_self_sources hop hz
  case muli | shl | shr | setbit => exact packImm_eq_self hop
  case ldi => exact packImm_eq_self_rd hop hz
  case testbit | mrtest => exact packImm_eq_self_rs1 hop hz

/-! ### The round trips -/

/-- Settles O2: the encoded word selects the command's row and gives its fields back, so the decoder accepts it. -/
theorem decodeOfEncode : Obligations.DecodeOfEncode := by
  intro i hwf
  obtain ⟨hop, hz⟩ := (selects_iff (row_mem_opcodeTable i) _).mp (selects_encode i)
  rw [decodeWord_of_opcode hop, withFieldsOf_encode]
  exact accept_of hz hwf

/-- Settles O3: the command is the one of the word's fields, and no bit of the word stands outside them. -/
theorem encodeOfDecode : Obligations.EncodeOfDecode := by
  intro w i h
  obtain ⟨hop, hz, hwf, hi⟩ := decodeWord_ok h
  refine ⟨?_, hwf⟩
  rw [← encode_withFieldsOf hop hz, hi]

/-- Settles O1: each word is closed, and the decoder computes. -/
theorem sampleWordsDecode : Obligations.SampleWordsDecode := by
  unfold Obligations.SampleWordsDecode
  decide

/-! ### Words that are no command (R110 to R112, R114) -/

theorem accept_of_mbz_ne_zero {w mbz : Word} {i : Instr} (h : w &&& mbz ≠ 0#32) :
    accept w mbz i = .error .mustBeZeroBits := by
  unfold accept; rw [if_neg h]

theorem accept_of_mbz_zero {w mbz : Word} (i : Instr) (h : w &&& mbz = 0#32) :
    accept w mbz i = if i.WellFormed then .ok i else .error .equalDestinations := by
  unfold accept; rw [if_pos h]

theorem wellFormed_divmod_iff {rd rr rs1 rs2 : Reg} : (Instr.divmod rd rr rs1 rs2).WellFormed ↔ rd ≠ rr := by
  simp [Instr.WellFormed, Instr.destinations]

theorem wellFormed_egcd_iff {rd rx ry rs1 rs2 : Reg} :
    (Instr.egcd rd rx ry rs1 rs2).WellFormed ↔ rd ≠ rx ∧ rd ≠ ry ∧ rx ≠ ry := by
  simp [Instr.WellFormed, Instr.destinations, and_assoc]

/-- Settles O4: the opcode picks at most one row, and the word selects it exactly when its must-be-zero bits are zero. -/
theorem decodingTotalAndUnambiguous : Obligations.DecodingTotalAndUnambiguous := by
  refine ⟨fun w r r' hr hr' hw hw' => ?_, fun w i h => ?_, fun w ⟨r, hr, hw⟩ => ?_, fun w h => ?_⟩
  · obtain ⟨hop, -⟩ := (selects_iff hr w).mp hw
    obtain ⟨hop', -⟩ := (selects_iff hr' w).mp hw'
    exact row_eq_of_opcode_eq hr hr' (hop.symm.trans hop')
  · obtain ⟨hop, hz, hwf, -⟩ := decodeWord_ok h
    have hrow := row_mem_opcodeTable i
    exact ⟨hrow, (selects_iff hrow w).mpr ⟨hop, hz⟩, hwf⟩
  · obtain ⟨hop, hz⟩ := (selects_iff hr w).mp hw
    obtain ⟨i, rfl⟩ := exists_row_eq hr
    rw [decodeWord_of_opcode hop, accept_of_mbz_zero _ hz]
    split
    · exact Or.inl ⟨_, rfl⟩
    · exact Or.inr rfl
  · by_cases hop : ∃ i : Instr, opcodeOf w = opcodeOf i.row.pattern
    · obtain ⟨i, hi⟩ := hop
      have hsel := h i.row (row_mem_opcodeTable i)
      rw [Bool.eq_false_iff, ne_eq, selects_iff (row_mem_opcodeTable i)] at hsel
      right
      rw [decodeWord_of_opcode hi]
      exact accept_of_mbz_ne_zero fun hz => hsel ⟨hi, hz⟩
    · exact Or.inl (decodeWord_of_unassigned (not_exists.mp hop))

end Sys2Proof

namespace Sys2Proof.Machine

/-- Settles O5: a word that decodes is of none of the four kinds, and the completion of one that does not is the fault
ILLEGAL. -/
theorem illegalWordsFault : Obligations.IllegalWordsFault := by
  intro s w hb he h
  rw [State.submit_of_ready w hb he]
  refine ⟨rfl, rfl, ?_⟩
  cases hd : decodeWord w with
  | error e => exact engineTurn_of_error rfl hd
  | ok i =>
    exfalso
    obtain ⟨hop, hz, -, -⟩ := decodeWord_ok hd
    have hrow := row_mem_opcodeTable i
    rcases h with hnone | ⟨r, hr, hopr, hne⟩ | ⟨hdivmod, heq⟩ | ⟨hegcd, heq⟩
    · apply hnone
      rw [hop]
      exact List.mem_map_of_mem (f := fun r : Row => (opcodeOf r.pattern).toNat) hrow
    · obtain rfl := row_eq_of_opcode_eq hr hrow (hopr.symm.trans hop)
      have hsel := (selects_iff hrow w).mpr ⟨hop, hz⟩
      exact hne (by simpa [Row.selects] using hsel)
    · rw [decodeWord_of_opcode (i := .divmod 0 0 0 0) hdivmod] at hd
      obtain ⟨-, -, hwf⟩ := accept_ok hd
      exact wellFormed_divmod_iff.mp hwf heq
    · rw [decodeWord_of_opcode (i := .egcd 0 0 0 0 0) hegcd] at hd
      obtain ⟨-, -, hwf⟩ := accept_ok hd
      obtain ⟨hrx, hry, hxy⟩ := wellFormed_egcd_iff.mp hwf
      rcases heq with heq | heq | heq
      exacts [hrx heq, hry heq, hxy heq]

end Sys2Proof.Machine

/-! PROOF. The assembler's immediates and its operand order (O6, O7). -/

namespace Sys2Proof

open Machine

/-! ### Immediates (R106, R120) -/

theorem asmUimm_eq_none_iff (v : Int) : asmUimm v = none ↔ ¬(0 ≤ v ∧ v ≤ 65535) := by
  unfold asmUimm; split <;> simp_all

theorem asmSimm_eq_none_iff (v : Int) : asmSimm v = none ↔ ¬(-32768 ≤ v ∧ v ≤ 32767) := by
  unfold asmSimm; split <;> simp_all

theorem asmUimm_eq_some {v : Int} {b : BitVec 16} (h : asmUimm v = some b) :
    (0 ≤ v ∧ v ≤ 65535) ∧ b = BitVec.ofInt 16 v := by
  unfold asmUimm at h
  split at h
  · next hv => exact ⟨hv, (Option.some.inj h).symm⟩
  · cases h

theorem asmSimm_eq_some {v : Int} {b : BitVec 16} (h : asmSimm v = some b) :
    (-32768 ≤ v ∧ v ≤ 32767) ∧ b = BitVec.ofInt 16 v := by
  unfold asmSimm at h
  split at h
  · next hv => exact ⟨hv, (Option.some.inj h).symm⟩
  · cases h

/-- Settles O6: a number in range is its own residue modulo 65536, unsigned or signed. -/
theorem assemblerImmediates : Obligations.AssemblerImmediates := by
  refine ⟨fun v => ⟨asmUimm_eq_none_iff v, fun b h => ?_⟩, fun v => ⟨asmSimm_eq_none_iff v, fun b h => ?_⟩⟩
  · obtain ⟨hv, rfl⟩ := asmUimm_eq_some h
    rw [uimm, BitVec.toNat_ofInt]
    omega
  · obtain ⟨hv, rfl⟩ := asmSimm_eq_some h
    rw [simm, BitVec.toInt_ofInt]
    exact Int.bmod_eq_of_le (by omega) (by omega)

/-! ### Operand order (R121, R122) -/

/-- Settles O7: every line is its mnemonic's arm of the assembler; a range check decides the ones with an immediate. -/
theorem assemblerOperandOrder : Obligations.AssemblerOperandOrder := by
  refine ⟨fun rd rr rs1 rs2 rs3 => ?_, fun rd rs1 v i h => ?_, fun rd rs1 v u h => ?_, fun rd rs1 rs3 => ?_,
    fun m rd rs1 v hm hv => ?_, fun m rd rs1 v hv => ?_⟩
  · exact ⟨rfl, rfl, rfl, rfl, rfl, rfl, rfl, rfl, rfl, rfl, rfl, rfl, rfl, rfl, rfl, rfl, rfl, rfl⟩
  · rw [assembleOps_shl, assembleOps_shr, h]
    exact ⟨rfl, rfl⟩
  · rw [assembleOps_ldi, assembleOps_muli, assembleOps_testbit, assembleOps_setbit, assembleOps_mrtest, h]
    exact ⟨rfl, rfl, rfl, rfl, rfl⟩
  · exact ⟨rfl, rfl, rfl, rfl⟩
  · have hnone : asmSimm v = none := (asmSimm_eq_none_iff v).mpr (by omega)
    rcases hm with rfl | rfl
    · rw [assembleOps_shl, hnone]; rfl
    · rw [assembleOps_shr, hnone]; rfl
  · have hnone : asmUimm v = none := (asmUimm_eq_none_iff v).mpr (by omega)
    constructor
    · rintro (rfl | rfl | rfl)
      · rw [assembleOps_ldi, hnone]; rfl
      · rw [assembleOps_testbit, hnone]; rfl
      · rw [assembleOps_mrtest, hnone]; rfl
    · rintro (rfl | rfl)
      · rw [assembleOps_muli, hnone]; rfl
      · rw [assembleOps_setbit, hnone]; rfl

end Sys2Proof

/-! PROOF. Construction and copy (O19), and the loading of a segment array through the window (O56). -/

namespace Sys2Proof.Machine

/-! ### NOP, CLR, LDI, MOV (R140 to R143) -/

/-- A format-I word whose `rs1` field is written as zeros (R104). -/
theorem append_packImm_rd (op : BitVec 8) (rd : Reg) (imm : BitVec 16) :
    (op ++ regBits rd ++ 0#4 ++ imm : Word) = packImm op rd 0 imm := rfl

/-- Settles O19: each word is its command's encoding, and each completion writes its value with its Z, or nothing. -/
theorem constructionResults : Obligations.ConstructionResults := by
  intro rd rs1 imm s
  refine ⟨⟨?_, _, rfl, fun _ => rfl, rfl⟩, ⟨?_, _, rfl, completed_produce s rd 0⟩,
    ⟨?_, _, rfl, completed_produce s rd imm.toNat⟩, ⟨?_, _, rfl, completed_produce s rd (s.reg rs1)⟩⟩
  · exact decodeOfEncode .nop List.nodup_nil
  · rw [append_packRegs_one]
    exact decodeOfEncode (.clr rd) (List.nodup_singleton rd)
  · rw [append_packImm_rd]
    exact decodeOfEncode (.ldi rd imm) (List.nodup_singleton rd)
  · rw [append_packRegs_two]
    exact decodeOfEncode (.mov rd rs1) (List.nodup_singleton rd)

/-! ### Loading a segment array (R144) -/

/-- An engine that takes the next segment of an array through WDATA: idle, with auto-increment, and the shown register
empty from segment WIDX on. -/
structure State.Loading (s : State) : Prop where
  legal : s.params.legal
  idle : s.status.busy = false
  autoIncrement : s.ctrl.ainc = true
  emptyAbove : s.reg s.wsel < 65536 ^ s.widx.toNat

/-- Writing a segment that was 0 adds its value at its place. -/
theorem replaceSeg_of_lt {v i : Nat} (w : Nat) (h : v < 65536 ^ i) : replaceSeg v i w = v + w * 65536 ^ i := by
  rw [replaceSeg, seg_eq_zero_of_lt h, Nat.zero_mul, Nat.sub_zero]

theorem toNat_extract_setWidth (x : BitVec 16) : ((x.setWidth 32).extractLsb' 0 16).toNat = x.toNat := by
  rw [toNat_extract_low16, BitVec.toNat_setWidth_of_le (by decide), Nat.mod_eq_of_lt x.isLt]

/-- A host write of one segment to WDATA (R41). -/
def State.writeSegment (s : State) (x : BitVec 16) : State := s.hostWrite 0x028 (x.setWidth 32)

section Loading

variable {s : State} (h : s.Loading) (hi : s.widx.toNat < s.params.maxSeg) (x : BitVec 16)

include h hi

/-- The next segment extends the shown register's value, and the index advances (R40, R41). -/
theorem State.Loading.writeSegment_eq :
    s.writeSegment x =
      { s.setReg s.wsel (s.reg s.wsel + x.toNat * 65536 ^ s.widx.toNat) with
        widx := s.widx + 1#16, answer := none } := by
  rw [State.writeSegment, State.hostWrite_wdata, State.writeData_of_lt h.idle hi, toNat_extract_setWidth,
    replaceSeg_of_lt _ h.emptyAbove, State.advance]
  exact congrArg (fun u : State => { u with answer := none }) (if_pos h.autoIncrement)

theorem State.Loading.reg_writeSegment (q : Reg) :
    (s.writeSegment x).reg q =
      if s.wsel = q then s.reg s.wsel + x.toNat * 65536 ^ s.widx.toNat else s.reg q := by
  rw [h.writeSegment_eq hi]
  exact State.reg_setReg s s.wsel q _

theorem State.Loading.writeSegment_wsel : (s.writeSegment x).wsel = s.wsel := by
  rw [h.writeSegment_eq hi]; rfl

theorem State.Loading.writeSegment_params : (s.writeSegment x).params = s.params := by
  rw [h.writeSegment_eq hi]; rfl

theorem State.Loading.writeSegment_status : (s.writeSegment x).status = s.status := by
  rw [h.writeSegment_eq hi]; rfl

theorem State.Loading.writeSegment_ctrl : (s.writeSegment x).ctrl = s.ctrl := by
  rw [h.writeSegment_eq hi]; rfl

/-- The index does not wrap below MAXSEG, which is at most 65535 (R9). -/
theorem State.Loading.toNat_widx_writeSegment : (s.writeSegment x).widx.toNat = s.widx.toNat + 1 := by
  have hmax := h.legal.2.1
  rw [h.writeSegment_eq hi]
  show (s.widx + 1#16).toNat = _
  rw [BitVec.toNat_add, BitVec.toNat_ofNat]
  omega

/-- After a segment is written the engine takes the next one. -/
theorem State.Loading.writeSegment : (s.writeSegment x).Loading where
  legal := (h.writeSegment_params hi x).symm ▸ h.legal
  idle := (h.writeSegment_status hi x).symm ▸ h.idle
  autoIncrement := (h.writeSegment_ctrl hi x).symm ▸ h.autoIncrement
  emptyAbove := by
    have hplace : (x.toNat + 1) * 65536 ^ s.widx.toNat ≤ 65536 * 65536 ^ s.widx.toNat :=
      Nat.mul_le_mul_right _ x.isLt
    have hlow := h.emptyAbove
    rw [h.writeSegment_wsel hi, h.reg_writeSegment hi, if_pos rfl, h.toNat_widx_writeSegment hi, pow_succ']
    rw [Nat.succ_mul] at hplace
    omega

end Loading

/-- The number a little-endian segment array stands for (R21, R144). -/
def segmentsValue (segs : List (BitVec 16)) : Nat := segs.foldr (fun x v => x.toNat + 65536 * v) 0

theorem segmentsValue_cons (x : BitVec 16) (segs : List (BitVec 16)) :
    segmentsValue (x :: segs) = x.toNat + 65536 * segmentsValue segs := rfl

/-- Writing the segments in turn adds the array's value to the shown register, from segment WIDX on; no write is dropped
and the index ends behind the array. -/
theorem State.Loading.foldl_writeSegment {s : State} {segs : List (BitVec 16)} (h : s.Loading)
    (hlen : s.widx.toNat + segs.length ≤ s.params.maxSeg) :
    let t := segs.foldl State.writeSegment s
    t.reg s.wsel = s.reg s.wsel + segmentsValue segs * 65536 ^ s.widx.toNat ∧
      (∀ q, q ≠ s.wsel → t.reg q = s.reg q) ∧ t.status = s.status ∧
      t.widx.toNat = s.widx.toNat + segs.length := by
  induction segs generalizing s with
  | nil => exact ⟨by simp [segmentsValue], fun _ _ => rfl, rfl, rfl⟩
  | cons x segs ih =>
    rw [List.length_cons] at hlen
    have hi : s.widx.toNat < s.params.maxSeg := by omega
    obtain ⟨hreg, hother, hstatus, hwidx⟩ := ih (h.writeSegment hi x)
      (by rw [h.toNat_widx_writeSegment hi, h.writeSegment_params hi]; omega)
    rw [h.writeSegment_wsel hi] at hreg hother
    rw [h.reg_writeSegment hi, if_pos rfl, h.toNat_widx_writeSegment hi] at hreg
    rw [h.toNat_widx_writeSegment hi] at hwidx
    refine ⟨?_, fun q hq => ?_, hstatus.trans (h.writeSegment_status hi x), ?_⟩
    · rw [List.foldl_cons, hreg, segmentsValue_cons]
      ring
    · rw [List.foldl_cons, hother q hq, h.reg_writeSegment hi, if_neg hq.symm]
    · rw [List.foldl_cons, hwidx, List.length_cons]
      omega

/-- Settles O56: the array is loaded from segment 0 of an empty register. -/
theorem segmentArrayLoads : Obligations.SegmentArrayLoads := by
  intro s segs hlegal hidle hainc hwidx hzero hlen
  have hstart : s.widx.toNat = 0 := by rw [hwidx]; rfl
  have hload : s.Loading := ⟨hlegal, hidle, hainc, by rw [hzero, hstart]; decide⟩
  have hfold := hload.foldl_writeSegment (segs := segs) (by omega)
  rw [hzero, hstart, pow_zero, Nat.mul_one, Nat.zero_add, Nat.zero_add] at hfold
  exact hfold

end Sys2Proof.Machine

/-! PROOF. The adder and the subtractor: ADD, SUB and their segment chains (O20 to O23). -/

namespace Sys2Proof.Machine

/-! ### ADD and SUB on values (R160, R161) -/

section Commands

variable {rd rs1 rs2 : Reg} {s : State}

theorem exec_add_eq : exec (.add rd rs1 rs2) s = .next (s.produceChecked rd (s.reg rs1 + s.reg rs2)) := by
  rw [← addChain_eq]; rfl

theorem exec_add_of_lt (h : s.reg rs1 + s.reg rs2 < s.cap) :
    exec (.add rd rs1 rs2) s = .next (s.produce rd (s.reg rs1 + s.reg rs2)) := by
  rw [exec_add_eq, State.produceChecked_of_lt rd h]

theorem exec_add_of_le (h : s.cap ≤ s.reg rs1 + s.reg rs2) :
    exec (.add rd rs1 rs2) s = .next (s.raiseFault .capacity) := by
  rw [exec_add_eq, State.produceChecked_of_le rd h]

/-- No borrow leaves the top segment. -/
theorem exec_sub_of_le (h : s.reg rs2 ≤ s.reg rs1) :
    exec (.sub rd rs1 rs2) s = .next (s.produce rd (s.reg rs1 - s.reg rs2)) := by
  have hchain : subChain (s.reg rs1) (s.reg rs2) = some (s.reg rs1 - s.reg rs2) := by
    rw [subChain_eq, if_neg (Nat.not_lt.mpr h)]
  simp only [exec, execSub, hchain]

/-- A borrow leaves the top segment. -/
theorem exec_sub_of_lt (h : s.reg rs1 < s.reg rs2) :
    exec (.sub rd rs1 rs2) s = .next (s.raiseFault .underflow) := by
  have hchain : subChain (s.reg rs1) (s.reg rs2) = none := by rw [subChain_eq, if_pos h]
  simp only [exec, execSub, hchain]

end Commands

/-- Settles O20: the word is the command's encoding, and the capacity check decides between the sum and the fault. -/
theorem addResult : Obligations.AddResult := by
  intro rd rs1 rs2 s
  refine ⟨?_, fun h => ⟨_, exec_add_of_lt h, completed_produce s rd _⟩, exec_add_of_le⟩
  rw [append_packRegs_three]
  exact decodeOfEncode (.add rd rs1 rs2) (List.nodup_singleton rd)

/-- Settles O21: the word is the command's encoding, and the top borrow decides between the difference and the fault. -/
theorem subResult : Obligations.SubResult := by
  intro rd rs1 rs2 s
  refine ⟨?_, fun h => ⟨_, exec_sub_of_le h, completed_produce s rd _⟩, exec_sub_of_lt⟩
  rw [append_packRegs_three]
  exact decodeOfEncode (.sub rd rs1 rs2) (List.nodup_singleton rd)

/-! ### The segment chains -/

theorem subLoop_borrow_le_one (a b n : Nat) : (subLoop a b n).2 ≤ 1 := by
  obtain ⟨-, hborrow, -⟩ := subLoop_spec a b n
  exact hborrow

/-- Settles O22: what each chain computes, and the loop invariant after every segment. -/
theorem carryAndBorrowChainsExact : Obligations.CarryAndBorrowChainsExact := fun a b =>
  ⟨addChain_eq a b, subChain_eq a b,
    fun n => ⟨addLoop_carry_le_one a b n, subLoop_borrow_le_one a b n, addLoop_spec a b n⟩⟩

/-! ### The laws (R162) -/

section Laws

variable {rd rs1 rs2 : Reg} {s : State}

theorem exec_add_comm : exec (.add rd rs1 rs2) s = exec (.add rd rs2 rs1) s := by
  rw [exec_add_eq, exec_add_eq, Nat.add_comm]

/-- SUB takes back what ADD added, while the second operand still stands in its register. -/
theorem exec_sub_produce_add (hne : rd ≠ rs2) :
    ∃ u, exec (.sub rd rd rs2) (s.produce rd (s.reg rs1 + s.reg rs2)) = .next u ∧ u.reg rd = s.reg rs1 := by
  have hsum : (s.produce rd (s.reg rs1 + s.reg rs2)).reg rd = s.reg rs1 + s.reg rs2 := by
    rw [State.produce_reg, if_pos rfl]
  have hrs2 : (s.produce rd (s.reg rs1 + s.reg rs2)).reg rs2 = s.reg rs2 := by
    rw [State.produce_reg, if_neg hne]
  refine ⟨_, exec_sub_of_le (by rw [hsum, hrs2]; exact Nat.le_add_left _ _), ?_⟩
  rw [State.produce_reg, if_pos rfl, hsum, hrs2, Nat.add_sub_cancel]

/-- A completed SUB leaves ERR clear exactly when the minuend is not the smaller. -/
theorem exec_sub_err_iff {t : State} (herr : s.status.err = false) (ht : exec (.sub rd rs1 rs2) s = .next t) :
    t.status.err = false ↔ s.reg rs2 ≤ s.reg rs1 := by
  by_cases h : s.reg rs2 ≤ s.reg rs1
  · rw [exec_sub_of_le h, Host.Outcome.next.injEq] at ht
    subst ht
    exact iff_of_true herr h
  · rw [exec_sub_of_lt (Nat.not_le.mp h), Host.Outcome.next.injEq] at ht
    subst ht
    exact iff_of_false nofun h

end Laws

/-- Settles O23: the three laws of R162. -/
theorem addSubLaws : Obligations.AddSubLaws := by
  intro rd rs1 rs2 s herr
  refine ⟨exec_add_comm, fun hne hfits => ?_, fun t ht => exec_sub_err_iff herr ht⟩
  obtain ⟨u, hsub, hreg⟩ := exec_sub_produce_add (s := s) (rs1 := rs1) hne
  exact ⟨_, u, exec_add_of_lt hfits, hsub, hreg⟩

end Sys2Proof.Machine

/-! PROOF. The multipliers and long division: MUL, MULI, MULMOD, DIV, MOD, DIVMOD and the laws of R187 (O24 to O28). -/

namespace Sys2Proof

/-! ### Encodings with equal destinations (R112) -/

/-- The decoder finds nothing to refuse in an encoded word but equal destinations. -/
theorem decodeWord_encode_of_not_wellFormed {i : Instr} (h : ¬ i.WellFormed) :
    decodeWord (encode i) = .error .equalDestinations := by
  obtain ⟨hop, hz⟩ := (selects_iff (row_mem_opcodeTable i) _).mp (selects_encode i)
  rw [decodeWord_of_opcode hop, withFieldsOf_encode, accept_of_mbz_zero i hz, if_neg h]

end Sys2Proof

namespace Sys2Proof.Machine

/-- A format-I word with both register fields (R104). -/
theorem append_packImm (op : BitVec 8) (rd rs1 : Reg) (imm : BitVec 16) :
    (op ++ regBits rd ++ regBits rs1 ++ imm : Word) = packImm op rd rs1 imm := rfl

/-! ### The commands on values (R180 to R186) -/

section Commands

variable {rd rr rs1 rs2 rs3 : Reg} {imm : BitVec 16} {s : State}

theorem exec_mul_eq : exec (.mul rd rs1 rs2) s = .next (s.produceChecked rd (s.reg rs1 * s.reg rs2)) := by
  rw [← mulSchool_eq]; rfl

theorem exec_mul_of_lt (h : s.reg rs1 * s.reg rs2 < s.cap) :
    exec (.mul rd rs1 rs2) s = .next (s.produce rd (s.reg rs1 * s.reg rs2)) := by
  rw [exec_mul_eq, State.produceChecked_of_lt rd h]

theorem exec_mul_of_le (h : s.cap ≤ s.reg rs1 * s.reg rs2) :
    exec (.mul rd rs1 rs2) s = .next (s.raiseFault .capacity) := by
  rw [exec_mul_eq, State.produceChecked_of_le rd h]

theorem exec_muli_eq : exec (.muli rd rs1 imm) s = .next (s.produceChecked rd (s.reg rs1 * imm.toNat)) := by
  rw [← muliChain_eq]; rfl

theorem exec_muli_of_lt (h : s.reg rs1 * imm.toNat < s.cap) :
    exec (.muli rd rs1 imm) s = .next (s.produce rd (s.reg rs1 * imm.toNat)) := by
  rw [exec_muli_eq, State.produceChecked_of_lt rd h]

theorem exec_muli_of_le (h : s.cap ≤ s.reg rs1 * imm.toNat) :
    exec (.muli rd rs1 imm) s = .next (s.raiseFault .capacity) := by
  rw [exec_muli_eq, State.produceChecked_of_le rd h]

theorem exec_mulmod_of_ne_zero (h : s.reg rs3 ≠ 0) :
    exec (.mulmod rd rs1 rs2 rs3) s = .next (s.produce rd (s.reg rs1 * s.reg rs2 % s.reg rs3)) := by
  rw [← mulMod_eq _ _ _ (Nat.pos_of_ne_zero h)]
  exact if_neg h

theorem exec_mulmod_of_zero (h : s.reg rs3 = 0) :
    exec (.mulmod rd rs1 rs2 rs3) s = .next (s.raiseFault .divZero) := if_pos h

theorem exec_div_of_ne_zero (h : s.reg rs2 ≠ 0) :
    exec (.div rd rs1 rs2) s = .next (s.produce rd (s.reg rs1 / s.reg rs2)) := by
  simp only [exec, execDiv, if_neg h, longDivide_eq _ _ (Nat.pos_of_ne_zero h)]

theorem exec_div_of_zero (h : s.reg rs2 = 0) :
    exec (.div rd rs1 rs2) s = .next (s.raiseFault .divZero) := if_pos h

theorem exec_mod_of_ne_zero (h : s.reg rs2 ≠ 0) :
    exec (.mod rd rs1 rs2) s = .next (s.produce rd (s.reg rs1 % s.reg rs2)) := by
  simp only [exec, execMod, if_neg h, longDivide_eq _ _ (Nat.pos_of_ne_zero h)]

theorem exec_mod_of_zero (h : s.reg rs2 = 0) :
    exec (.mod rd rs1 rs2) s = .next (s.raiseFault .divZero) := if_pos h

theorem exec_divmod_of_ne_zero (h : s.reg rs2 ≠ 0) :
    exec (.divmod rd rr rs1 rs2) s =
      .next (((s.setReg rd (s.reg rs1 / s.reg rs2)).setReg rr (s.reg rs1 % s.reg rs2)).setZ (s.reg rs1 / s.reg rs2)).finish := by
  simp only [exec, execDivmod, if_neg h, longDivide_eq _ _ (Nat.pos_of_ne_zero h)]

theorem exec_divmod_of_zero (h : s.reg rs2 = 0) :
    exec (.divmod rd rr rs1 rs2) s = .next (s.raiseFault .divZero) := if_pos h

/-- A completion that writes two registers, with Z from the first, in the terms claims use. -/
theorem completed_setReg_setReg (s : State) (hne : rd ≠ rr) (v w : Nat) :
    s.Completed (((s.setReg rd v).setReg rr w).setZ v).finish
      (fun q => if q = rd then v else if q = rr then w else s.reg q) (s.withZ v) := by
  refine ⟨fun q => ?_, rfl⟩
  simp only [State.reg_finish, State.reg_setZ, State.reg_setReg, eq_comm (a := q)]
  by_cases hrd : rd = q
  · rw [if_neg (hrd ▸ hne.symm), if_pos hrd, if_pos hrd]
  · rw [if_neg hrd, if_neg hrd]

end Commands

/-! ### MUL, MULI, MULMOD -/

/-- Settles O24: the word is the command's encoding, and the capacity check on the product decides between it and the
fault. -/
theorem mulResult : Obligations.MulResult := by
  intro rd rs1 rs2 s
  refine ⟨?_, fun h => ⟨_, exec_mul_of_lt h, completed_produce s rd _⟩, exec_mul_of_le⟩
  rw [append_packRegs_three]
  exact decodeOfEncode (.mul rd rs1 rs2) (List.nodup_singleton rd)

/-- Settles O25: as for MUL, the second factor being the immediate read unsigned. -/
theorem muliResult : Obligations.MuliResult := by
  intro rd rs1 imm s
  refine ⟨?_, fun h => ⟨_, exec_muli_of_lt h, completed_produce s rd _⟩, exec_muli_of_le⟩
  rw [append_packImm]
  exact decodeOfEncode (.muli rd rs1 imm) (List.nodup_singleton rd)

/-- Settles O26: the word is the command's encoding, and the modulus decides between the remainder and the fault. -/
theorem mulmodResult : Obligations.MulmodResult := by
  intro rd rs1 rs2 rs3 s
  refine ⟨?_, fun h => ⟨_, exec_mulmod_of_ne_zero h, completed_produce s rd _⟩, exec_mulmod_of_zero⟩
  rw [append_packRegs_four]
  exact decodeOfEncode (.mulmod rd rs1 rs2 rs3) (List.nodup_singleton rd)

/-! ### The laws of the two engines (R187) -/

theorem longDivide_mulSchool (a : Nat) {b : Nat} (hb : 0 < b) : longDivide (mulSchool a b) b = (a, 0) := by
  rw [longDivide_eq _ b hb, mulSchool_eq, Nat.mul_div_cancel a hb, Nat.mul_mod_left]

theorem mulMod_eq_longDivide_mulSchool (a b : Nat) {n : Nat} (hn : 0 < n) :
    mulMod a b n = (longDivide (mulSchool a b) n).2 := by
  rw [longDivide_eq _ n hn, mulSchool_eq, mulMod_eq a b n hn]

/-- Settles O27: the loop computes floor division, whose quotient and remainder obey the laws. -/
theorem longDivisionIsFloorDivision : Obligations.LongDivisionIsFloorDivision := by
  intro a b hne
  have hb : 0 < b := Nat.pos_of_ne_zero hne
  rw [longDivide_mulSchool a hb, longDivide_eq a b hb]
  exact ⟨Nat.div_add_mod' a b, Nat.mod_lt a hb, rfl, rfl, rfl, fun c => mulMod_eq_longDivide_mulSchool c a hb⟩

/-! ### DIV, MOD, DIVMOD -/

/-- Settles O28: each word is its command's encoding, refused when DIVMOD's destinations are equal, and the divisor decides
between the results and the fault. -/
theorem divisionResults : Obligations.DivisionResults := by
  intro rd rr rs1 rs2 s
  rw [append_packRegs_three, append_packRegs_three, append_packRegs_four]
  refine ⟨decodeOfEncode (.div rd rs1 rs2) (List.nodup_singleton rd),
    decodeOfEncode (.mod rd rs1 rs2) (List.nodup_singleton rd),
    fun hne => decodeOfEncode (.divmod rd rr rs1 rs2) (wellFormed_divmod_iff.mpr hne),
    fun heq => decodeWord_encode_of_not_wellFormed (i := .divmod rd rr rs1 rs2) fun hwf => wellFormed_divmod_iff.mp hwf heq,
    fun h => ⟨?_, ?_, fun hne => ?_⟩,
    fun h => ⟨exec_div_of_zero h, exec_mod_of_zero h, exec_divmod_of_zero h⟩⟩
  · exact ⟨_, exec_div_of_ne_zero h, completed_produce s rd _⟩
  · exact ⟨_, exec_mod_of_ne_zero h, completed_produce s rd _⟩
  · exact ⟨_, exec_divmod_of_ne_zero h, completed_setReg_setReg s hne _ _⟩

end Sys2Proof.Machine

/-! PROOF. The segment shifter and its four commands: SHL, SHR, SHLV, SHRV (O29 to O32). -/

namespace Sys2Proof.Machine

/-! ### The shifter (R210, R215) -/

section Shifter

variable {capBits a k : Nat}

theorem shiftLeft_of_exceeds (ha : a ≠ 0) (h : capBits < bitlen a + k) : shiftLeft capBits a k = none := by
  rw [shiftLeft_eq, if_pos ⟨ha, h⟩]

theorem shiftLeft_of_fits (h : a ≠ 0 → bitlen a + k ≤ capBits) : shiftLeft capBits a k = some (a * 2 ^ k) := by
  rw [shiftLeft_eq, if_neg fun ⟨ha, hlt⟩ => Nat.not_le.mpr hlt (h ha)]

/-- Whatever the left shifter gives is the product. -/
theorem eq_mul_of_shiftLeft_eq_some {v : Nat} (h : shiftLeft capBits a k = some v) : v = a * 2 ^ k := by
  rw [shiftLeft_eq] at h
  split at h
  · cases h
  · exact (Option.some.inj h).symm

end Shifter

/-- Settles O29: the shifter multiplies or divides by `2^k`, and dividing the product, or multiplying the quotient, gives
the laws of R215. -/
theorem segmentShifterExact : Obligations.SegmentShifterExact := by
  intro capBits a k
  refine ⟨fun ha => if_pos ha, shiftLeft_of_exceeds, fun _ h => shiftLeft_of_fits fun _ => h, shiftRight_eq a k,
    fun v hv => ?_, fun v hv => ?_⟩
  · rw [eq_mul_of_shiftLeft_eq_some hv, shiftRight_eq, Nat.mul_div_cancel _ (Nat.two_pow_pos k)]
  · rw [eq_mul_of_shiftLeft_eq_some hv, shiftRight_eq]
    exact Nat.eq_sub_of_add_eq (Nat.div_add_mod' a (2 ^ k))

/-! ### The commands on values (R211 to R214) -/

section Commands

variable {rd rs1 rs2 : Reg} {imm : BitVec 16} {s : State} {a k : Nat}

theorem State.shifted_shiftLeft_of_exceeds (ha : a ≠ 0) (h : s.capBits < bitlen a + k) :
    s.shifted rd (shiftLeft s.capBits a k) = s.raiseFault .capacity := by
  rw [shiftLeft_of_exceeds ha h, State.shifted_none]

theorem State.shifted_shiftLeft_of_fits (h : a ≠ 0 → bitlen a + k ≤ s.capBits) :
    s.shifted rd (shiftLeft s.capBits a k) = s.produce rd (a * 2 ^ k) := by
  rw [shiftLeft_of_fits h, State.shifted_some]

theorem exec_shl_of_nonneg (h : 0 ≤ imm.toInt) :
    exec (.shl rd rs1 imm) s = .next (s.shifted rd (shiftLeft s.capBits (s.reg rs1) imm.toInt.toNat)) := by
  rw [show imm.toInt.toNat = imm.toInt.natAbs by omega, ← shiftLeftSigned_of_nonneg _ _ h]
  rfl

theorem exec_shl_of_neg (h : imm.toInt < 0) :
    exec (.shl rd rs1 imm) s = .next (s.produce rd (s.reg rs1 / 2 ^ (-imm.toInt).toNat)) := by
  rw [show (-imm.toInt).toNat = imm.toInt.natAbs by omega, ← shiftRight_eq, ← State.shifted_some,
    ← shiftLeftSigned_of_neg s.capBits _ h]
  rfl

theorem exec_shr_of_nonneg (h : 0 ≤ imm.toInt) :
    exec (.shr rd rs1 imm) s = .next (s.produce rd (s.reg rs1 / 2 ^ imm.toInt.toNat)) := by
  rw [show imm.toInt.toNat = imm.toInt.natAbs by omega, ← shiftRight_eq, ← State.shifted_some,
    ← shiftRightSigned_of_nonneg s.capBits _ h]
  rfl

theorem exec_shr_of_neg (h : imm.toInt < 0) :
    exec (.shr rd rs1 imm) s = .next (s.shifted rd (shiftLeft s.capBits (s.reg rs1) (-imm.toInt).toNat)) := by
  rw [show (-imm.toInt).toNat = imm.toInt.natAbs by omega, ← shiftRightSigned_of_neg _ _ h]
  rfl

theorem exec_shlv_eq :
    exec (.shlv rd rs1 rs2) s = .next (s.shifted rd (shiftLeft s.capBits (s.reg rs1) (s.reg rs2))) := rfl

theorem exec_shrv_eq : exec (.shrv rd rs1 rs2) s = .next (s.produce rd (s.reg rs1 / 2 ^ s.reg rs2)) := by
  rw [← shiftRight_eq]; rfl

/-- A bounded register needs no more than a full register's bits (R20). -/
theorem State.RegsBounded.bitlen_le_capBits (h : s.RegsBounded) (q : Reg) : bitlen (s.reg q) ≤ s.capBits :=
  (bitlen_le_iff _ _).mpr (s.cap_eq_two_pow ▸ h q)

end Commands

/-! ### SHL and SHR -/

/-- Settles O30: the sign of the count picks the shift.  A left shift that raises no fault fits: by the capacity check when
the count is positive, by the bound on the register when it is 0. -/
theorem shlResult : Obligations.ShlResult := by
  intro rd rs1 imm s hbound
  rw [append_packImm]
  refine ⟨decodeOfEncode (.shl rd rs1 imm) (List.nodup_singleton rd), ?_⟩
  split_ifs with hfault hk
  · obtain ⟨hpos, ha, hlt⟩ := hfault
    rw [exec_shl_of_nonneg hpos.le, State.shifted_shiftLeft_of_exceeds ha hlt]
    rfl
  · have hfits : s.reg rs1 ≠ 0 → bitlen (s.reg rs1) + imm.toInt.toNat ≤ s.capBits := fun ha => by
      rcases hk.eq_or_lt with hzero | hpos
      · rw [← hzero]
        exact hbound.bitlen_le_capBits rs1
      · exact Nat.not_lt.mp fun hlt => hfault ⟨hpos, ha, hlt⟩
    rw [exec_shl_of_nonneg hk, State.shifted_shiftLeft_of_fits hfits]
    exact ⟨_, rfl, completed_produce s rd _⟩
  · exact ⟨_, exec_shl_of_neg (Int.not_le.mp hk), completed_produce s rd _⟩

/-- Settles O31: as for SHL with the two shifts exchanged; a left shift has a positive count here, so the capacity check
alone says that it fits. -/
theorem shrResult : Obligations.ShrResult := by
  intro rd rs1 imm s
  rw [append_packImm]
  refine ⟨decodeOfEncode (.shr rd rs1 imm) (List.nodup_singleton rd), ?_⟩
  split_ifs with hfault hk
  · obtain ⟨hneg, ha, hlt⟩ := hfault
    rw [exec_shr_of_neg hneg, State.shifted_shiftLeft_of_exceeds ha hlt]
    rfl
  · exact ⟨_, exec_shr_of_nonneg hk, completed_produce s rd _⟩
  · have hneg : imm.toInt < 0 := Int.not_le.mp hk
    rw [exec_shr_of_neg hneg,
      State.shifted_shiftLeft_of_fits fun ha => Nat.not_lt.mp fun hlt => hfault ⟨hneg, ha, hlt⟩]
    exact ⟨_, rfl, completed_produce s rd _⟩

/-! ### SHLV and SHRV -/

/-- Settles O32: the words are the commands' encodings, and the capacity check decides SHLV. -/
theorem registerShiftResults : Obligations.RegisterShiftResults := by
  intro rd rs1 rs2 s
  rw [append_packRegs_three, append_packRegs_three]
  refine ⟨decodeOfEncode (.shlv rd rs1 rs2) (List.nodup_singleton rd),
    decodeOfEncode (.shrv rd rs1 rs2) (List.nodup_singleton rd), ?_,
    ⟨_, exec_shrv_eq, completed_produce s rd _⟩⟩
  split_ifs with hfault
  · obtain ⟨ha, hlt⟩ := hfault
    rw [exec_shlv_eq, State.shifted_shiftLeft_of_exceeds ha hlt]
    rfl
  · rw [exec_shlv_eq, State.shifted_shiftLeft_of_fits fun ha => Nat.not_lt.mp fun hlt => hfault ⟨ha, hlt⟩]
    exact ⟨_, rfl, completed_produce s rd _⟩

end Sys2Proof.Machine

/-! PROOF. Bit access and comparison: TESTBIT, SETBIT, BITLEN, CMP (O33 to O36). -/

namespace Sys2Proof.Machine

/-! ### Words with the `rd` field written as zeros (R103, R104) -/

/-- A format-I word without a destination. -/
theorem append_packImm_rs1 (op : BitVec 8) (rs1 : Reg) (imm : BitVec 16) :
    (op ++ 0#4 ++ regBits rs1 ++ imm : Word) = packImm op 0 rs1 imm := rfl

/-- A format-R word with two sources and no destination. -/
theorem append_packRegs_sources (op : BitVec 8) (rs1 rs2 : Reg) :
    (op ++ 0#4 ++ regBits rs1 ++ regBits rs2 ++ 0#12 : Word) = packRegs op 0 rs1 rs2 0 0 :=
  append_packRegs_three op 0 rs1 rs2

/-! ### Completions that write no register -/

theorem completed_answerB (s : State) (b : Bool) : s.Completed (s.answerB b) s.reg { s.flags with b := b } :=
  ⟨fun _ => rfl, rfl⟩

theorem completed_setOrder (s : State) (o : Ordering) :
    s.Completed (s.setOrder o).finish s.reg (s.setOrder o).flags :=
  ⟨fun _ => rfl, rfl⟩

/-! ### The comparator's verdicts (R234) -/

section Comparator

variable (a b : Nat)

theorem compareSegs_eq_lt_iff : compareSegs a b = .lt ↔ a < b := by
  rw [compareSegs_eq, compare_lt_iff_lt]

theorem compareSegs_eq_eq_iff : compareSegs a b = .eq ↔ a = b := by
  rw [compareSegs_eq, compare_eq_iff_eq]

theorem compareSegs_eq_gt_iff : compareSegs a b = .gt ↔ b < a := by
  rw [compareSegs_eq, compare_gt_iff_gt]

/-- The flags of a comparison say the numeric order (R233). -/
theorem State.setOrder_compareSegs_flags (s : State) :
    (s.setOrder (compareSegs a b)).flags =
      { s.flags with lt := decide (a < b), eq := decide (a = b), gt := decide (b < a) } := by
  simp only [State.setOrder_flags, beq_eq_decide, compareSegs_eq_lt_iff, compareSegs_eq_eq_iff, compareSegs_eq_gt_iff]

end Comparator

/-! ### The commands on values (R230 to R233) -/

section Commands

variable {rd rs1 rs2 : Reg} {imm : BitVec 16} {s : State}

theorem exec_testbit_eq :
    exec (.testbit rs1 imm) s = .next (s.answerB (decide (s.reg rs1 / 2 ^ imm.toNat % 2 = 1))) := by
  rw [← bit_eq, ← beq_eq_decide]; rfl

theorem exec_setbit_of_lt (h : imm.toNat < s.capBits) :
    exec (.setbit rd rs1 imm) s = .next (s.produce rd (s.reg rs1 ||| 2 ^ imm.toNat)) := by
  rw [← Nat.one_shiftLeft]
  exact if_neg (Nat.not_le.mpr h)

theorem exec_setbit_of_le (h : s.capBits ≤ imm.toNat) :
    exec (.setbit rd rs1 imm) s = .next (s.raiseFault .capacity) := if_pos h

theorem exec_bitlen_eq : exec (.bitlen rd rs1) s = .next (s.produce rd (bitlen (s.reg rs1))) := by
  rw [← bitLength_eq]; rfl

theorem exec_cmp_eq :
    exec (.cmp rs1 rs2) s = .next (s.setOrder (compareSegs (s.reg rs1) (s.reg rs2))).finish := rfl

end Commands

/-- A value with a bit set is not 0, which is why SETBIT's Z is always 0 (R231). -/
theorem or_two_pow_ne_zero (a k : Nat) : a ||| 2 ^ k ≠ 0 :=
  Nat.pos_iff_ne_zero.mp (lt_of_lt_of_le (Nat.two_pow_pos k) Nat.right_le_or)

/-- BITLEN's Z, read from the bit length, is the zero test of the value (R232). -/
theorem bitlen_eq_zero_iff (a : Nat) : bitlen a = 0 ↔ a = 0 := by
  rw [← Nat.le_zero, bitlen_le_iff, Nat.pow_zero, Nat.lt_one_iff]

/-! ### TESTBIT, SETBIT, BITLEN and CMP -/

/-- Settles O33: the word is the command's encoding, and the bit read is the bit of the quotient. -/
theorem testbitResult : Obligations.TestbitResult := by
  intro rs1 imm s
  refine ⟨?_, _, exec_testbit_eq, completed_answerB s _⟩
  rw [append_packImm_rs1]
  exact decodeOfEncode (.testbit rs1 imm) List.nodup_nil

/-- Settles O34: the word is the command's encoding, the index decides between the result and the fault, and the result is
not 0. -/
theorem setbitResult : Obligations.SetbitResult := by
  intro rd rs1 imm s
  refine ⟨?_, fun h => ⟨_, exec_setbit_of_lt h, ?_⟩, exec_setbit_of_le⟩
  · rw [append_packImm]
    exact decodeOfEncode (.setbit rd rs1 imm) (List.nodup_singleton rd)
  · rw [← decide_eq_false (or_two_pow_ne_zero (s.reg rs1) imm.toNat)]
    exact completed_produce s rd _

/-- Settles O35: the word is the command's encoding, and the bit length is the least exponent above the value. -/
theorem bitlenResult : Obligations.BitlenResult := by
  intro rd rs1 s
  refine ⟨?_, _, bitlen (s.reg rs1), exec_bitlen_eq, ?_, fun k => (bitlen_le_iff _ k).symm⟩
  · rw [append_packRegs_two]
    exact decodeOfEncode (.bitlen rd rs1) (List.nodup_singleton rd)
  · simp only [← bitlen_eq_zero_iff (s.reg rs1)]
    exact completed_produce s rd _

/-- Settles O36: the comparator computes the numeric order, so the three flags written from its verdict say that order. -/
theorem cmpResult : Obligations.CmpResult := by
  refine ⟨fun a b => ⟨compareSegs_eq_lt_iff a b, compareSegs_eq_eq_iff a b, compareSegs_eq_gt_iff a b⟩,
    fun rs1 rs2 s => ⟨?_, _, exec_cmp_eq, ?_⟩⟩
  · rw [append_packRegs_sources]
    exact decodeOfEncode (.cmp rs1 rs2) List.nodup_nil
  · rw [← State.setOrder_compareSegs_flags]
    exact completed_setOrder s _

end Sys2Proof.Machine

/-! PROOF. The number-theory engines: EXPMOD, EGCD, MODINV (O37 to O42). -/

namespace Sys2Proof.Machine

/-- A format-E word (R105). -/
theorem append_packRegs_five (op : BitVec 8) (rd rs1 rs2 rx ry : Reg) :
    (op ++ regBits rd ++ regBits rs1 ++ regBits rs2 ++ regBits rx ++ regBits ry ++ 0#4 : Word) =
      packRegs op rd rs1 rs2 rx ry := rfl

/-! ### Modular exponentiation (R250, R251) -/

section Expmod

variable {rd rs1 rs2 rs3 : Reg} {s : State}

theorem exec_expmod_of_ne_zero (h : s.reg rs3 ≠ 0) :
    exec (.expmod rd rs1 rs2 rs3) s = .next (s.produce rd (s.reg rs1 ^ s.reg rs2 % s.reg rs3)) := by
  rw [← expMod_eq _ _ _ (Nat.pos_of_ne_zero h)]
  exact if_neg h

theorem exec_expmod_of_zero (h : s.reg rs3 = 0) :
    exec (.expmod rd rs1 rs2 rs3) s = .next (s.raiseFault .divZero) := if_pos h

end Expmod

/-- Settles O37: the word is the command's encoding, and the modulus decides between the power and the fault. -/
theorem expmodResult : Obligations.ExpmodResult := by
  intro rd rs1 rs2 rs3 s
  refine ⟨?_, fun h => ⟨_, exec_expmod_of_ne_zero h, completed_produce s rd _⟩, exec_expmod_of_zero⟩
  rw [append_packRegs_four]
  exact decodeOfEncode (.expmod rd rs1 rs2 rs3) (List.nodup_singleton rd)

/-! ### The recurrence of Extended Euclid (R255) -/

/-- The multiple `m` that R255 adds to the coefficients of a level from those, `x1` and `y1`, of the level below. -/
def euclidCorrection (a b x1 y1 : Nat) : Nat := max (ceilDiv y1 b) (ceilDiv (x1 + a / b * y1) a)

/-- The correction is the least multiple that keeps both coefficients non-negative. -/
theorem euclidCorrection_le_iff {a b x1 y1 m : Nat} (ha : 0 < a) (hb : 0 < b) :
    euclidCorrection a b x1 y1 ≤ m ↔ y1 ≤ m * b ∧ x1 + a / b * y1 ≤ m * a := by
  rw [euclidCorrection, max_le_iff, ceilDiv_le_iff hb, ceilDiv_le_iff ha]

/-- One level of the loop. -/
theorem euclidLoop_succ {fuel a b : Nat} (hb : 0 < b) {d x1 y1 : Nat} (h : euclidLoop fuel b (a % b) = (d, x1, y1)) :
    euclidLoop (fuel + 1) a b =
      (d, euclidCorrection a b x1 y1 * b - y1, euclidCorrection a b x1 y1 * a - x1 - a / b * y1) := by
  rw [euclidLoop, if_neg hb.ne', h]
  rfl

/-- More levels than the second argument change nothing, since it falls at every level. -/
theorem euclidLoop_eq_of_lt : ∀ {fuel fuel' a b : Nat}, b < fuel → b < fuel' →
    euclidLoop fuel a b = euclidLoop fuel' a b
  | fuel + 1, fuel' + 1, a, b, h, h' => by
    rcases b.eq_zero_or_pos with rfl | hb
    · rfl
    · have hmod := Nat.mod_lt a hb
      rw [euclidLoop_succ hb rfl, euclidLoop_succ hb rfl,
        euclidLoop_eq_of_lt (fuel := fuel) (fuel' := fuel') (by omega) (by omega)]

theorem extendedEuclid_zero (a : Nat) : extendedEuclid a 0 = (a, 1, 0) := rfl

theorem extendedEuclid_of_pos {a b : Nat} (hb : 0 < b) {d x1 y1 : Nat} (h : extendedEuclid b (a % b) = (d, x1, y1)) :
    extendedEuclid a b =
      (d, euclidCorrection a b x1 y1 * b - y1, euclidCorrection a b x1 y1 * a - x1 - a / b * y1) :=
  euclidLoop_succ hb ((euclidLoop_eq_of_lt (Nat.mod_lt a hb) (Nat.lt_succ_self _)).trans h)

/-- Settles O38: the engine's fuel never runs out, so each level is the recurrence, and
`extendedEuclid_spec` gives the gcd. -/
theorem euclidRecurrence : Obligations.EuclidRecurrence := by
  refine ⟨extendedEuclid_zero, fun a b d x1 y1 ha hb h => ?_, fun a b d x y hdom h => ?_⟩
  · obtain ⟨hy, hx⟩ := (euclidCorrection_le_iff ha hb).mp (le_refl (euclidCorrection a b x1 y1))
    exact ⟨_, hy, hx, fun m' hy' hx' => (euclidCorrection_le_iff ha hb).mpr ⟨hy', hx'⟩, extendedEuclid_of_pos hb h⟩
  · have hspec := extendedEuclid_spec a b hdom
    rwa [h] at hspec

/-! ### EGCD (R256, R257) -/

/-- The completion that writes `d`, `x` and `y` to three registers, with Z from `d`. -/
def State.produceThree (s : State) (rd rx ry : Reg) (d x y : Nat) : State :=
  ((((s.setReg rd d).setReg rx x).setReg ry y).setZ d).finish

section Egcd

variable {rd rx ry rs1 rs2 : Reg} {s t : State} {d x y : Nat}

theorem State.produceThree_reg (s : State) (hdx : rd ≠ rx) (hdy : rd ≠ ry) (hxy : rx ≠ ry) (d x y : Nat) (q : Reg) :
    (s.produceThree rd rx ry d x y).reg q =
      if q = rd then d else if q = rx then x else if q = ry then y else s.reg q := by
  simp only [State.produceThree, State.reg_finish, State.reg_setZ, State.reg_setReg, eq_comm (a := q)]
  by_cases hrd : rd = q
  · subst hrd
    rw [if_neg hdy.symm, if_neg hdx.symm, if_pos rfl, if_pos rfl]
  · by_cases hrx : rx = q
    · subst hrx
      rw [if_neg hxy.symm, if_pos rfl, if_neg hrd, if_pos rfl]
    · rw [if_neg hrx, if_neg hrd, if_neg hrd, if_neg hrx]

/-- What distinct destinations hold after the completion. -/
theorem State.produceThree_dest (s : State) (hdx : rd ≠ rx) (hdy : rd ≠ ry) (hxy : rx ≠ ry) (d x y : Nat) :
    (s.produceThree rd rx ry d x y).reg rd = d ∧ (s.produceThree rd rx ry d x y).reg rx = x ∧
      (s.produceThree rd rx ry d x y).reg ry = y := by
  simp only [State.produceThree_reg s hdx hdy hxy, if_true, if_neg hdx.symm, if_neg hdy.symm, if_neg hxy.symm, and_self]

theorem exec_egcd_of_domain (h : s.reg rs1 = 0 ∧ s.reg rs2 ≠ 0) :
    exec (.egcd rd rx ry rs1 rs2) s = .next (s.raiseFault .domain) := if_pos h

theorem exec_egcd_of_le (h : ¬(s.reg rs1 = 0 ∧ s.reg rs2 ≠ 0)) (he : extendedEuclid (s.reg rs1) (s.reg rs2) = (d, x, y))
    (hcap : s.cap ≤ x ∨ s.cap ≤ y) : exec (.egcd rd rx ry rs1 rs2) s = .next (s.raiseFault .capacity) := by
  simp only [exec, execEgcd, if_neg h, he, if_pos hcap]

theorem exec_egcd_of_lt (h : ¬(s.reg rs1 = 0 ∧ s.reg rs2 ≠ 0)) (he : extendedEuclid (s.reg rs1) (s.reg rs2) = (d, x, y))
    (hcap : ¬(s.cap ≤ x ∨ s.cap ≤ y)) :
    exec (.egcd rd rx ry rs1 rs2) s = .next (s.produceThree rd rx ry d x y) := by
  simp only [exec, execEgcd, if_neg h, he, if_neg hcap, State.produceThree]

/-- What EGCD with distinct destinations leaves in them, when it raises no fault. -/
theorem reg_egcd_of_next (hdx : rd ≠ rx) (hdy : rd ≠ ry) (hxy : rx ≠ ry) (herr : t.status.err = false)
    (ht : exec (.egcd rd rx ry rs1 rs2) s = .next t) :
    (0 < s.reg rs1 ∨ s.reg rs2 = 0) ∧ extendedEuclid (s.reg rs1) (s.reg rs2) = (t.reg rd, t.reg rx, t.reg ry) := by
  have hfault : ∀ f, exec (.egcd rd rx ry rs1 rs2) s ≠ .next (s.raiseFault f) := fun f hf => by
    rw [ht, Host.Outcome.next.injEq] at hf
    subst hf
    cases herr
  have hdom : ¬(s.reg rs1 = 0 ∧ s.reg rs2 ≠ 0) := fun h => hfault _ (exec_egcd_of_domain h)
  obtain ⟨⟨d, x, y⟩, he⟩ : ∃ r, extendedEuclid (s.reg rs1) (s.reg rs2) = r := ⟨_, rfl⟩
  have hcap : ¬(s.cap ≤ x ∨ s.cap ≤ y) := fun h => hfault _ (exec_egcd_of_le hdom he h)
  rw [exec_egcd_of_lt hdom he hcap, Host.Outcome.next.injEq] at ht
  subst ht
  obtain ⟨hd, hx, hy⟩ := s.produceThree_dest hdx hdy hxy d x y
  exact ⟨by omega, by rw [he, hd, hx, hy]⟩

end Egcd

/-- Settles O39: the word is the command's encoding, refused when two destinations are equal, and the two checks of R256
decide, in its order, between the faults and the three results. -/
theorem egcdResult : Obligations.EgcdResult := by
  intro rd rx ry rs1 rs2 s
  rw [append_packRegs_five]
  refine ⟨fun hne => decodeOfEncode (.egcd rd rx ry rs1 rs2) (wellFormed_egcd_iff.mpr hne),
    fun heq => decodeWord_encode_of_not_wellFormed (i := .egcd rd rx ry rs1 rs2) fun hwf => ?_, ?_⟩
  · obtain ⟨hdx, hdy, hxy⟩ := wellFormed_egcd_iff.mp hwf
    rcases heq with h | h | h <;> contradiction
  · split_ifs with hdom
    · exact exec_egcd_of_domain hdom
    · refine ⟨_, _, _, rfl, ?_⟩
      split_ifs with hcap
      · exact exec_egcd_of_le hdom rfl hcap
      · exact fun ⟨hdx, hdy, hxy⟩ =>
          ⟨_, exec_egcd_of_lt hdom rfl hcap, s.produceThree_reg hdx hdy hxy _ _ _, rfl⟩

/-- Settles O40: what EGCD wrote is what the engine gave, and the engine gives the gcd and its coefficients. -/
theorem egcdBezout : Obligations.EgcdBezout := by
  intro rd rx ry rs1 rs2 s t hdx hdy hxy _ ht herr
  obtain ⟨hdom, he⟩ := reg_egcd_of_next hdx hdy hxy herr ht
  have hspec := extendedEuclid_spec _ _ hdom
  rwa [he] at hspec

/-- The coefficients fit every register that the operands fit (R257). -/
theorem extendedEuclid_lt {a b c : Nat} (hdom : 0 < a ∨ b = 0) (hc : 1 < c) (ha : a < c) (hb : b < c) :
    (extendedEuclid a b).2.1 < c ∧ (extendedEuclid a b).2.2 < c := by
  rcases b.eq_zero_or_pos with rfl | hpos
  · exact ⟨hc, Nat.zero_lt_of_lt hc⟩
  · obtain ⟨hx, hy⟩ := extendedEuclid_bounds a b (by omega) hpos
    exact ⟨hx.trans_lt hb, hy.trans_lt ha⟩

/-- Settles O41: coefficients within the operands pass the capacity check that the operands' registers pass. -/
theorem egcdNeverFaultsCapacity : Obligations.EgcdNeverFaultsCapacity := by
  intro rd rx ry rs1 rs2 s hlegal hbound hdx hdy hxy hdom
  have hone : 1 < s.cap := Nat.one_lt_pow (by omega) (by decide)
  have hfits := extendedEuclid_lt hdom hone (hbound rs1) (hbound rs2)
  have hle := extendedEuclid_bounds (s.reg rs1) (s.reg rs2)
  generalize he : extendedEuclid (s.reg rs1) (s.reg rs2) = r at hfits hle
  obtain ⟨d, x, y⟩ := r
  obtain ⟨hx, hy⟩ := hfits
  refine ⟨_, exec_egcd_of_lt (by omega) he (not_or.mpr ⟨hx.not_ge, hy.not_ge⟩), rfl, fun hpos => ?_⟩
  obtain ⟨-, hregx, hregy⟩ := s.produceThree_dest hdx hdy hxy d x y
  rw [hregx, hregy]
  exact hle (by omega) hpos

/-! ### MODINV (R260) -/

section Modinv

variable {rd rs1 rs2 : Reg} {s : State}

theorem exec_modinv_of_zero (h : s.reg rs2 = 0) :
    exec (.modinv rd rs1 rs2) s = .next (s.raiseFault .divZero) := if_pos h

theorem exec_modinv_of_some {r : Nat} (h : s.reg rs2 ≠ 0) (hinv : modInverse (s.reg rs1) (s.reg rs2) = some r) :
    exec (.modinv rd rs1 rs2) s = .next ((s.setB false).produce rd r) := by
  simp only [exec, execModinv, if_neg h, hinv]

theorem exec_modinv_of_none (h : s.reg rs2 ≠ 0) (hinv : modInverse (s.reg rs1) (s.reg rs2) = none) :
    exec (.modinv rd rs1 rs2) s = .next (s.answerB true) := by
  simp only [exec, execModinv, if_neg h, hinv]

/-- A value-producing completion that also writes B, in the terms claims use. -/
theorem completed_setB_produce (s : State) (rd : Reg) (b : Bool) (v : Nat) :
    s.Completed ((s.setB b).produce rd v) (s.withReg rd v) { s.flags with z := decide (v = 0), b := b } := by
  obtain ⟨hreg, -⟩ := completed_produce (s.setB b) rd v
  exact ⟨hreg, rfl⟩

end Modinv

/-- Settles O42: the word is the command's encoding, and the unit finds an inverse exactly when the gcd is 1. -/
theorem modinvResult : Obligations.ModinvResult := by
  intro rd rs1 rs2 s
  refine ⟨?_, fun h hgcd => ?_, fun h hgcd => ?_, exec_modinv_of_zero⟩
  · rw [append_packRegs_three]
    exact decodeOfEncode (.modinv rd rs1 rs2) (List.nodup_singleton rd)
  · rcases modInverse_spec (s.reg rs1) _ (Nat.pos_of_ne_zero h) with ⟨-, hne⟩ | ⟨r, hinv, -, hlt, hmul⟩
    · exact absurd hgcd hne
    · exact ⟨_, r, exec_modinv_of_some h hinv, hlt, hmul, completed_setB_produce s rd false r⟩
  · rcases modInverse_spec (s.reg rs1) _ (Nat.pos_of_ne_zero h) with ⟨hinv, -⟩ | ⟨r, -, heq, -, -⟩
    · exact ⟨_, exec_modinv_of_none h hinv, completed_answerB s true⟩
    · exact absurd heq hgcd

end Sys2Proof.Machine

/-! PROOF. Miller-Rabin: MRW and MRTEST (O43 to O46). -/

namespace Sys2Proof.Machine

/-! ### The witness loop in powers of the base (R265) -/

/-- `a^e mod n` is a square root of 1 other than 1 and `n - 1`. -/
def NontrivialRoot (a n e : Nat) : Prop := a ^ e % n ≠ 1 ∧ a ^ e % n ≠ n - 1 ∧ (a ^ e) ^ 2 % n = 1

/-- The loop's squaring, on a running value that is a power of the base. -/
theorem mulMod_pow_self (a e : Nat) {n : Nat} (hn : 0 < n) : mulMod (a ^ e % n) (a ^ e % n) n = (a ^ e) ^ 2 % n := by
  rw [mulMod_eq _ _ _ hn, ← Nat.mul_mod, sq]

/-- One more of the exponent's leading bits. -/
theorem div_two_pow_eq (u i : Nat) : u / 2 ^ i = u / 2 ^ (i + 1) * 2 + bit u i := by
  rw [bit_eq, pow_succ, ← Nat.div_div_eq_div_mul, Nat.div_add_mod']

/-- A square and, at a set bit, a multiplication lead from the exponent's leading bits to those with the next bit. -/
theorem squareMultiply_pow (a u i : Nat) {n : Nat} (hn : 0 < n) :
    (if bit u i = 1 then mulMod ((a ^ (u / 2 ^ (i + 1))) ^ 2 % n) a n else (a ^ (u / 2 ^ (i + 1))) ^ 2 % n) =
      a ^ (u / 2 ^ i) % n := by
  rw [div_two_pow_eq u i, pow_add a, pow_mul a]
  split_ifs with h
  · rw [mulMod_eq _ _ _ hn, Nat.mod_mul_mod, h, pow_one]
  · have hzero : bit u i = 0 := by
      have := bit_eq u i
      omega
    rw [hzero, pow_zero, mul_one]

/-- The loop's verdict on the low `k` bits of `n - 1`, the others being read. -/
theorem witnessLoop_eq_true_iff (a : Nat) {n : Nat} (hn : 0 < n) : ∀ k : Nat,
    witnessLoop a n k (a ^ ((n - 1) / 2 ^ k) % n) = true ↔
      (∃ i, i < k ∧ NontrivialRoot a n ((n - 1) / 2 ^ (i + 1))) ∨ a ^ (n - 1) % n ≠ 1
  | 0 => by simp [witnessLoop]
  | k + 1 => by
    simp only [witnessLoop, mulMod_pow_self _ _ hn, squareMultiply_pow _ _ _ hn, Nat.exists_lt_succ_right]
    split_ifs with hroot
    · obtain ⟨hsq, hne, hne'⟩ := hroot
      exact iff_of_true rfl (Or.inl (Or.inr ⟨hne, hne', hsq⟩))
    · have hnot : ¬NontrivialRoot a n ((n - 1) / 2 ^ (k + 1)) := fun ⟨hne, hne', hsq⟩ => hroot ⟨hsq, hne, hne'⟩
      rw [witnessLoop_eq_true_iff a hn k, or_iff_left hnot]

/-- The verdict on the whole exponent: the loop starts with no bit read. -/
theorem witness_eq_true_iff (a : Nat) {n : Nat} (hn : 2 ≤ n) :
    witness a n = true ↔
      (∃ i, i < bitlen (n - 1) ∧ NontrivialRoot a n ((n - 1) / 2 ^ (i + 1))) ∨ a ^ (n - 1) % n ≠ 1 := by
  have hstart : a ^ ((n - 1) / 2 ^ bitlen (n - 1)) % n = 1 := by
    rw [Nat.div_eq_of_lt (lt_two_pow_bitlen _), pow_zero, Nat.mod_eq_of_lt hn]
  have hloop := witnessLoop_eq_true_iff a (Nat.zero_lt_of_lt hn) (bitlen (n - 1))
  rwa [hstart] at hloop

/-- Settles O43: the running value is always the base to the power of the bits of `n - 1` read so far. -/
theorem witnessInPowers : Obligations.WitnessInPowers := fun a _ hn => witness_eq_true_iff a hn

/-! ### The verdicts of R266 -/

theorem witness_one_right (a : Nat) : witness a 1 = false := rfl

/-- No proof of compositeness: no nontrivial root on the way, and Fermat's congruence at its end. -/
theorem witness_eq_false {a n : Nat} (hn : 2 ≤ n) (hroot : ∀ e, ¬NontrivialRoot a n e) (hfermat : a ^ (n - 1) % n = 1) :
    witness a n = false := by
  rw [Bool.eq_false_iff, ne_eq, witness_eq_true_iff a hn]
  rintro (⟨i, -, h⟩ | h)
  · exact hroot _ h
  · exact h hfermat

theorem witness_one_left {n : Nat} (hn : 1 ≤ n) : witness 1 n = false := by
  rcases hn.eq_or_lt with rfl | hn
  · rfl
  · have hpow : ∀ e, 1 ^ e % n = 1 := fun e => by rw [one_pow, Nat.mod_eq_of_lt hn]
    exact witness_eq_false hn (fun e ⟨hne, _, _⟩ => hne (hpow e)) (hpow _)

/-- A multiple of the modulus fails Fermat's congruence. -/
theorem witness_of_mod_eq_zero {a n : Nat} (hn : 2 ≤ n) (h : a % n = 0) : witness a n = true := by
  refine (witness_eq_true_iff a hn).mpr (Or.inr ?_)
  rw [Nat.pow_mod, h, zero_pow (by omega), Nat.zero_mod]
  exact Nat.zero_ne_one

/-- Modulo a prime, 1 has no square roots but 1 and -1. -/
theorem not_nontrivialRoot_of_prime {p : Nat} (hp : p.Prime) (a e : Nat) : ¬NontrivialRoot a p e := by
  rintro ⟨hne, hne', hsq⟩
  rw [Nat.pow_mod] at hsq
  have hlt : a ^ e % p < p := Nat.mod_lt _ hp.pos
  generalize a ^ e % p = x at hne hne' hsq hlt
  have hdvd : p ∣ (x + 1) * (x - 1) := by
    rw [← Nat.sq_sub_sq, one_pow, ← hsq]
    exact Nat.dvd_sub_mod _
  rcases hp.dvd_mul.mp hdvd with h | h
  · have := Nat.le_of_dvd (Nat.succ_pos x) h
    omega
  · have hzero : x = 0 := by
      have := Nat.eq_zero_of_dvd_of_lt h (by omega)
      omega
    rw [hzero, zero_pow two_ne_zero, Nat.zero_mod] at hsq
    exact Nat.zero_ne_one hsq

/-- A prime is never flagged (R266). -/
theorem witness_of_prime {a p : Nat} (hp : p.Prime) (h1 : 1 ≤ a) (h2 : a ≤ p - 1) : witness a p = false := by
  have htwo := hp.two_le
  have hcop : a.Coprime p := (Nat.coprime_of_lt_prime (by omega) (by omega) hp).symm
  have hfermat : a ^ (p - 1) % p = 1 % p := Nat.totient_prime hp ▸ Nat.ModEq.pow_totient hcop
  rw [Nat.mod_eq_of_lt htwo] at hfermat
  exact witness_eq_false htwo (not_nontrivialRoot_of_prime hp a) hfermat

/-- Modulo 2 exactly the even bases are witnesses: an odd base passes, and 2 divides an even one. -/
theorem witness_two_eq_true_iff (a : Nat) : witness a 2 = true ↔ a % 2 = 0 := by
  refine ⟨fun h => ?_, witness_of_mod_eq_zero le_rfl⟩
  rcases (witness_eq_true_iff a le_rfl).mp h with ⟨i, -, hroot⟩ | hne
  · exact absurd hroot (not_nontrivialRoot_of_prime Nat.prime_two a _)
  · rw [pow_one] at hne
    omega

/-! ### MRW (R266) -/

theorem exec_mrw_of_ne_zero {rs1 rs2 : Reg} {s : State} (h : s.reg rs2 ≠ 0) :
    exec (.mrw rs1 rs2) s = .next (s.answerB (witness (s.reg rs1) (s.reg rs2))) := if_neg h

theorem exec_mrw_of_zero {rs1 rs2 : Reg} {s : State} (h : s.reg rs2 = 0) :
    exec (.mrw rs1 rs2) s = .next (s.raiseFault .underflow) := if_pos h

/-- Settles O44: the word is the command's encoding, B takes the witness's verdict, and the listed verdicts are those of
the lemmas above. -/
theorem mrwResult : Obligations.MrwResult := by
  intro rs1 rs2 s
  refine ⟨?_, fun h => ⟨_, exec_mrw_of_ne_zero h, completed_answerB s _, ?_⟩, exec_mrw_of_zero⟩
  · rw [append_packRegs_sources]
    exact decodeOfEncode (.mrw rs1 rs2) List.nodup_nil
  · rw [State.answerB_flags]
    refine ⟨fun hone => ?_, fun htwo => ?_, fun hone => ?_, witness_of_mod_eq_zero, witness_of_prime⟩
    · rw [hone]
      exact witness_one_right (s.reg rs1)
    · rw [htwo]
      exact witness_two_eq_true_iff _
    · rw [hone]
      exact witness_one_left (Nat.pos_of_ne_zero h)

/-! ### The bases of MRTEST (R268, R269) -/

/-- A supplied draw in the range is the draw (R268). -/
theorem draw_fst_of_supplied {s : State} {lo hi v : Nat} (hv : s.draws[0]? = some v) (hlo : lo ≤ v) (hhi : v ≤ hi) :
    (s.draw lo hi).1 = v := by
  cases hdraws : s.draws with
  | nil => simp [hdraws] at hv
  | cons w rest =>
    obtain rfl : w = v := by simpa [hdraws] using hv
    rw [State.draw, hdraws]
    exact drawInto_of_mem hlo hhi

/-- The bases that `testRounds` draws, in order. -/
def testBases (n : Nat) : Nat → State → List Nat
  | 0, _ => []
  | r + 1, s =>
    let d := s.draw 1 (max 1 (n - 1))
    if witness d.1 n then [d.1] else d.1 :: testBases n r d.2

section Bases

variable (n r : Nat) (s : State)

/-- The rounds' verdict is whether a base drawn is a witness, and they take one draw per base. -/
theorem testRounds_eq :
    testRounds n r s =
      ((testBases n r s).any fun a => witness a n,
        { s with
          draws := s.draws.drop (testBases n r s).length
          drawsTaken := s.drawsTaken + (testBases n r s).length }) := by
  fun_induction testBases n r s with
  | case1 s => rfl
  | case2 r s d hwit => simp [testRounds, d, hwit, draw_state]
  | case3 r s d hwit ih =>
    rw [testRounds, if_neg hwit, ih]
    simp [d, hwit, draw_state, Nat.add_assoc, Nat.add_comm]

theorem length_testBases_le : (testBases n r s).length ≤ r := by
  fun_induction testBases n r s with
  | case1 s => exact le_rfl
  | case2 r s d hwit => exact Nat.succ_pos r
  | case3 r s d hwit ih => exact Nat.succ_le_succ ih

variable {n r s}

/-- Only a witness ends the rounds early. -/
theorem length_testBases_of_forall (h : ∀ a ∈ testBases n r s, witness a n = false) : (testBases n r s).length = r := by
  fun_induction testBases n r s with
  | case1 s => rfl
  | case2 r s d hwit => exact absurd hwit (Bool.eq_false_iff.mp (h _ (List.mem_singleton_self _)))
  | case3 r s d hwit ih => exact congrArg (· + 1) (ih fun a ha => h a (List.mem_cons_of_mem _ ha))

theorem mem_testBases_range {a : Nat} (ha : a ∈ testBases n r s) : 1 ≤ a ∧ a ≤ max 1 (n - 1) := by
  fun_induction testBases n r s with
  | case1 s => cases ha
  | case2 r s d hwit =>
    rw [List.mem_singleton] at ha
    exact ha ▸ draw_mem s (le_max_left _ _)
  | case3 r s d hwit ih =>
    rcases List.mem_cons.mp ha with rfl | ha
    · exact draw_mem s (le_max_left _ _)
    · exact ih ha

/-- A base before the last is no witness. -/
theorem witness_of_mem_dropLast_testBases {a : Nat} (ha : a ∈ (testBases n r s).dropLast) : witness a n = false := by
  fun_induction testBases n r s with
  | case1 s => cases ha
  | case2 r s d hwit => cases ha
  | case3 r s d hwit ih =>
    generalize testBases n r d.2 = bases at ih ha
    cases bases with
    | nil => cases ha
    | cons b bases =>
      rcases List.mem_cons.mp ha with rfl | ha
      · exact Bool.eq_false_iff.mpr hwit
      · exact ih ha

/-- A base is the supplied draw at its place, where that lies in the range. -/
theorem getElem?_testBases : ∀ k v, k < (testBases n r s).length → s.draws[k]? = some v →
    1 ≤ v → v ≤ max 1 (n - 1) → (testBases n r s)[k]? = some v := by
  fun_induction testBases n r s with
  | case1 s => nofun
  | case2 r s d hwit =>
    intro k v hk hv hlo hhi
    obtain rfl : k = 0 := Nat.lt_one_iff.mp hk
    exact congrArg some (draw_fst_of_supplied hv hlo hhi)
  | case3 r s d hwit ih =>
    intro k v hk hv hlo hhi
    cases k with
    | zero => exact congrArg some (draw_fst_of_supplied hv hlo hhi)
    | succ k =>
      refine ih k v (Nat.lt_of_succ_lt_succ hk) ?_ hlo hhi
      rw [draw_state, List.getElem?_drop, Nat.add_comm, hv]

end Bases

/-! ### MRTEST (R269) -/

section Mrtest

variable {rs1 : Reg} {imm : BitVec 16} {s : State}

theorem exec_mrtest_of_zero (h : s.reg rs1 = 0) :
    exec (.mrtest rs1 imm) s = .next (s.raiseFault .underflow) := if_pos h

/-- The completion, in the bases drawn. -/
theorem exec_mrtest_of_ne_zero (h : s.reg rs1 ≠ 0) :
    exec (.mrtest rs1 imm) s =
      .next { s with
        flags := { s.flags with b := (testBases (s.reg rs1) imm.toNat s).any fun a => witness a (s.reg rs1) }
        status := { s.status with busy := false, done := true }
        draws := s.draws.drop (testBases (s.reg rs1) imm.toNat s).length
        drawsTaken := s.drawsTaken + (testBases (s.reg rs1) imm.toNat s).length } := by
  simp only [exec, execMrtest, if_neg h, uimm, testRounds_eq]
  rfl

end Mrtest

/-- Settles O45: the word is the command's encoding, and the bases drawn have the properties of the lemmas above. -/
theorem mrtestResult : Obligations.MrtestResult := by
  intro rs1 imm s
  refine ⟨?_, fun h => ⟨_, testBases (s.reg rs1) imm.toNat s, exec_mrtest_of_ne_zero h, length_testBases_le _ _ _,
    fun _ => mem_testBases_range, getElem?_testBases, fun _ => witness_of_mem_dropLast_testBases,
    length_testBases_of_forall, rfl⟩, exec_mrtest_of_zero⟩
  rw [append_packImm_rs1]
  exact decodeOfEncode (.mrtest rs1 imm) List.nodup_nil

/-- A base of MRTEST's range is no witness against a prime, nor against 1. -/
theorem witness_of_range {a n : Nat} (hn : n.Prime ∨ n = 1) (h1 : 1 ≤ a) (h2 : a ≤ max 1 (n - 1)) :
    witness a n = false := by
  rcases hn with hp | rfl
  · have htwo := hp.two_le
    exact witness_of_prime hp h1 (by omega)
  · exact witness_one_right a

/-- Settles O46: every base drawn lies in the range, where no base is a witness. -/
theorem mrtestNeverFlagsAPrime : Obligations.MrtestNeverFlagsAPrime := by
  intro rs1 imm s hn
  have hne : s.reg rs1 ≠ 0 := by
    rcases hn with hp | hone
    · exact hp.ne_zero
    · omega
  refine ⟨_, exec_mrtest_of_ne_zero hne, ?_, rfl⟩
  refine List.any_eq_false.mpr fun a ha => Bool.eq_false_iff.mp ?_
  obtain ⟨h1, h2⟩ := mem_testBases_range ha
  exact witness_of_range hn h1 h2

end Sys2Proof.Machine

/-! PROOF. What a step does with a pending command: every step answers a next state, the decoded command runs, its completion
is precise, and a STATUS write acknowledges it (O8 to O12, O14, O51). -/

namespace Sys2Proof.Machine

/-! ### Turns (R69, R301, R310, R318) -/

theorem decodeTableWord_eq_some_iff {n w : Nat} {i : Instr} :
    decodeTableWord n w = some i ↔ decodeWord (tableWord n w) = .ok i := by
  unfold decodeTableWord
  cases decodeWord (tableWord n w) <;> simp

theorem tableWord_of_lt {w : Nat} (h : w < 2 ^ 32) : tableWord 32 w = BitVec.ofNat 32 w := by
  rw [tableWord, Nat.mod_eq_of_lt h]

/-- The turn `withFetchWord` puts first is the engine's, with the word pending. -/
theorem step_withFetchWord (s : State) (n w : Nat) :
    step (s.withFetchWord n w) =
      engineTurn { s with pend := tableWord n w, status := { s.status with busy := true } } :=
  step_engine_scheduled rfl

/-- Settles O8: the schedule picks the turn, and a busy engine's turn is `exec` of what PEND decodes to. -/
theorem stepRunsTheDecodedCommand : Obligations.StepRunsTheDecodedCommand := by
  refine ⟨fun s i hbusy hdec => ⟨fun hsched => ?_, fun rest hsched => ?_⟩, fun _ _ _ => step_host,
    fun s w i hw hdec => ?_⟩
  · rw [step_engine hsched, engineTurn_of_decode hbusy hdec]
  · rw [step_engine_scheduled hsched]
    exact engineTurn_of_decode hbusy hdec
  · rw [decodeTableWord_eq_some_iff, tableWord_of_lt hw] at hdec
    rw [step_withFetchWord, tableWord_of_lt hw]
    exact engineTurn_of_decode rfl hdec

/-- Settles O9: the turn is the engine's, and an idle engine's turn answers the state it was given. -/
theorem idleEngineKeepsState : Obligations.IdleEngineKeepsState := by
  refine fun s hidle => ⟨fun hsched => ?_, fun rest hsched => ?_⟩
  · rw [step_engine hsched, engineTurn_idle hidle]
  · rw [step_engine_scheduled hsched]
    exact engineTurn_idle hidle

/-- The engine's turn always answers a state, and the engine is idle in it. -/
theorem exists_engineTurn_eq_next_idle (s : State) : ∃ t, engineTurn s = .next t ∧ t.status.busy = false := by
  rcases engineTurn_cases s with ⟨hidle, h⟩ | ⟨-, f, h⟩ | ⟨-, i, t, -, h, -, heq, -⟩
  · exact ⟨_, h, hidle⟩
  · exact ⟨_, h, rfl⟩
  · exact ⟨t, h, by rw [heq]⟩

/-- Settles O10: each agent's turn answers a state. -/
theorem stepAlwaysAnswersNext : Obligations.StepAlwaysAnswersNext := by
  intro s
  rcases step_cases s with ⟨rest, he⟩ | ⟨a, rest, ha⟩
  · obtain ⟨t, ht, -⟩ := exists_engineTurn_eq_next_idle { s with schedule := rest }
    exact ⟨t, he.trans ht⟩
  · exact ⟨_, ha⟩

/-! ### A pending command ends (R301) -/

/-- A run of at most `n` steps from `s` reaches a state with BUSY = 0. -/
def IdleWithin (n : Nat) (s : State) : Prop :=
  ∃ k t, k ≤ n ∧ Sys2Proof.core.run k s = .next t ∧ t.status.busy = false

theorem idleWithin_of_idle (n : Nat) {s : State} (h : s.status.busy = false) : IdleWithin n s :=
  ⟨0, s, n.zero_le, rfl, h⟩

theorem IdleWithin.of_step {n : Nat} {s t : State} (hs : step s = .next t) (h : IdleWithin n t) :
    IdleWithin (n + 1) s := by
  obtain ⟨k, u, hk, hrun, hidle⟩ := h
  exact ⟨k + 1, u, Nat.succ_le_succ hk, (core_run_succ k hs).trans hrun, hidle⟩

/-- One engine turn ends whatever is pending. -/
theorem idleWithin_of_step_engineTurn (n : Nat) {s s' : State} (h : step s = engineTurn s') : IdleWithin (n + 1) s := by
  obtain ⟨t, ht, hidle⟩ := exists_engineTurn_eq_next_idle s'
  exact .of_step (h.trans ht) (idleWithin_of_idle n hidle)

/-- The host's accesses use up the schedule, and then the turn is the engine's. -/
theorem idleWithin_of_schedule {ts : List Turn} {s : State} (h : s.schedule = ts) : IdleWithin (ts.length + 1) s := by
  induction ts generalizing s with
  | nil => exact idleWithin_of_step_engineTurn _ (step_engine h)
  | cons turn rest ih =>
    cases turn with
    | engine => exact idleWithin_of_step_engineTurn _ (step_engine_scheduled h)
    | host a => exact .of_step (step_host h) (ih (State.access_schedule _ a))

/-- Settles O11: the bound holds of every state, pending command or not. -/
theorem pendingCommandEnds : Obligations.PendingCommandEnds :=
  fun _ _ => idleWithin_of_schedule rfl

/-! ### Faults (R300, R303) -/

/-- The operation that takes a fault leaves exactly the marks the statements name. -/
theorem State.raiseFault_eq_faulted (s : State) (f : FaultCode) : s.raiseFault f = s.faulted f.code := rfl

/-- Settles O12: a completion is one fault of R300, or changes neither ERR, ERRCODE, OVR nor ERRCMD. -/
theorem completionFinishesOrFaultsPrecisely : Obligations.CompletionFinishesOrFaultsPrecisely := by
  intro i s
  rcases exec_cases i s with ⟨f, h⟩ | ⟨t, h, -, heq, -⟩
  · obtain ⟨hlo, hhi⟩ := f.code_range
    exact ⟨_, h, Or.inl ⟨f.code, hlo, hhi, s.raiseFault_eq_faulted f⟩⟩
  · exact ⟨t, h, Or.inr ⟨by rw [heq], by rw [heq]⟩⟩

/-- The faults the table of R300 gives each command, once decoded. -/
def faultsOf : Instr → List FaultCode
  | .sub _ _ _ | .mrw _ _ | .mrtest _ _ => [.underflow]
  | .div _ _ _ | .mod _ _ _ | .divmod _ _ _ _ | .mulmod _ _ _ _ | .expmod _ _ _ _ | .modinv _ _ _ => [.divZero]
  | .add _ _ _ | .mul _ _ _ | .muli _ _ _ | .shl _ _ _ | .shr _ _ _ | .shlv _ _ _ | .setbit _ _ _ => [.capacity]
  | .egcd _ _ _ _ _ => [.capacity, .domain]
  | .nop | .clr _ | .ldi _ _ | .mov _ _ | .shrv _ _ _ | .testbit _ _ | .bitlen _ _ | .cmp _ _ => []

/-- The answer `r` of a completion from `s` is a fault of the list `fs`, or leaves ERR as it was. -/
def RaisesOnly (fs : List FaultCode) (s : State) (r : Result) : Prop :=
  (∃ f ∈ fs, r = .next (s.raiseFault f)) ∨ ∃ t, r = .next t ∧ t.status.err = s.status.err

section RaisesOnly

variable {fs : List FaultCode} {f : FaultCode} {s t : State} {r : Result}

theorem RaisesOnly.of_next (h : r = .next t) (herr : t.status.err = s.status.err) : RaisesOnly fs s r :=
  Or.inr ⟨t, h, herr⟩

theorem RaisesOnly.of_fault (hf : f ∈ fs) (h : r = .next (s.raiseFault f)) : RaisesOnly fs s r :=
  Or.inl ⟨f, hf, h⟩

/-- The shape of most completions: one check, which raises the fault or lets the command finish. -/
theorem RaisesOnly.of_check {p : Prop} (hfault : p → r = .next (s.raiseFault f))
    (hnext : ¬p → r = .next t) (herr : t.status.err = s.status.err) : RaisesOnly [f] s r := by
  by_cases hp : p
  · exact .of_fault (List.mem_singleton_self f) (hfault hp)
  · exact .of_next (hnext hp) herr

theorem raisesOnly_shifted (s : State) (rd : Reg) (o : Option Nat) :
    RaisesOnly [.capacity] s (.next (s.shifted rd o)) := by
  cases o with
  | none => exact .of_fault (List.mem_singleton_self _) rfl
  | some v => exact .of_next rfl rfl

end RaisesOnly

/-- A completion raises no fault but those R300 gives its command. -/
theorem exec_raisesOnly (i : Instr) (s : State) : RaisesOnly (faultsOf i) s (exec i s) := by
  cases i with
  | nop | clr | ldi | mov | shrv | testbit | bitlen | cmp => exact .of_next rfl rfl
  | add => exact .of_check exec_add_of_le (fun h => exec_add_of_lt (Nat.not_le.mp h)) rfl
  | sub => exact .of_check exec_sub_of_lt (fun h => exec_sub_of_le (Nat.not_lt.mp h)) rfl
  | mul => exact .of_check exec_mul_of_le (fun h => exec_mul_of_lt (Nat.not_le.mp h)) rfl
  | muli => exact .of_check exec_muli_of_le (fun h => exec_muli_of_lt (Nat.not_le.mp h)) rfl
  | setbit => exact .of_check exec_setbit_of_le (fun h => exec_setbit_of_lt (Nat.not_le.mp h)) rfl
  | mulmod => exact .of_check exec_mulmod_of_zero exec_mulmod_of_ne_zero rfl
  | div => exact .of_check exec_div_of_zero exec_div_of_ne_zero rfl
  | mod => exact .of_check exec_mod_of_zero exec_mod_of_ne_zero rfl
  | divmod => exact .of_check exec_divmod_of_zero exec_divmod_of_ne_zero rfl
  | expmod => exact .of_check exec_expmod_of_zero exec_expmod_of_ne_zero rfl
  | mrw => exact .of_check exec_mrw_of_zero exec_mrw_of_ne_zero rfl
  | mrtest => exact .of_check exec_mrtest_of_zero exec_mrtest_of_ne_zero rfl
  | shl | shr | shlv => exact raisesOnly_shifted s _ _
  | modinv rd rs1 rs2 =>
    by_cases h : s.reg rs2 = 0
    · exact .of_fault (List.mem_singleton_self _) (exec_modinv_of_zero h)
    · cases hinv : modInverse (s.reg rs1) (s.reg rs2) with
      | none => exact .of_next (exec_modinv_of_none h hinv) rfl
      | some v => exact .of_next (exec_modinv_of_some h hinv) rfl
  | egcd rd rx ry rs1 rs2 =>
    by_cases hdom : s.reg rs1 = 0 ∧ s.reg rs2 ≠ 0
    · exact .of_fault (by simp [faultsOf]) (exec_egcd_of_domain hdom)
    · obtain ⟨⟨d, x, y⟩, he⟩ : ∃ r, extendedEuclid (s.reg rs1) (s.reg rs2) = r := ⟨_, rfl⟩
      by_cases hcap : s.cap ≤ x ∨ s.cap ≤ y
      · exact .of_fault (by simp [faultsOf]) (exec_egcd_of_le hdom he hcap)
      · exact .of_next (exec_egcd_of_lt hdom he hcap) rfl

/-- A completion that sets ERR took one of its command's faults. -/
theorem exists_fault_of_exec_err {i : Instr} {s t : State} (hs : s.status.err = false) (h : exec i s = .next t)
    (ht : t.status.err = true) : ∃ f ∈ faultsOf i, t = s.raiseFault f := by
  rcases exec_raisesOnly i s with ⟨f, hf, hr⟩ | ⟨u, hr, herr⟩ <;> rw [h, Host.Outcome.next.injEq] at hr
  · exact ⟨f, hf, hr⟩
  · rw [← hr, hs, ht] at herr
    cases herr

/-- Settles O14: ERRCODE is the code of a fault on the command's list. -/
theorem faultCodesByCommand : Obligations.FaultCodesByCommand := by
  intro i s t hs h ht
  obtain ⟨f, hf, rfl⟩ := exists_fault_of_exec_err hs h ht
  cases i with
  | sub | mrw | mrtest | div | mod | divmod | mulmod | expmod | modinv | add | mul | muli | shl | shr | shlv | setbit =>
    rw [List.mem_singleton.mp hf]
    rfl
  | egcd =>
    rcases List.mem_pair.mp hf with rfl | rfl
    · exact Or.inl rfl
    · exact Or.inr rfl
  | nop | clr | ldi | mov | shrv | testbit | bitlen | cmp => exact List.not_mem_nil hf

/-! ### Acknowledgement (R34, R305) -/

/-- Settles O51: clearing by a written 1 is keeping the bit while the written one is 0. -/
theorem statusWriteAcknowledges : Obligations.StatusWriteAcknowledges := by
  intro s w
  have hclear : ∀ old written : Bool, (old && !written) = if written = true then false else old := by decide
  rw [State.hostWrite_status]
  simp only [State.acknowledge, hclear]

end Sys2Proof.Machine

/-! PROOF. Reset: what power-on leaves (O17), and the two uses of a CTRL write (O52). -/

namespace Sys2Proof.Machine

/-! ### CTRL (R33, R341) -/

theorem State.writeCtrl_of_srst (s : State) {w : Word} (h : w.getLsbD 0 = true) : s.writeCtrl w = s.softReset :=
  if_pos h

theorem State.writeCtrl_of_not_srst (s : State) {w : Word} (h : w.getLsbD 0 = false) :
    s.writeCtrl w = { s with ctrl := ⟨w.getLsbD 1, w.getLsbD 2⟩ } :=
  if_neg (Bool.eq_false_iff.mp h)

theorem State.hostWrite_ctrl (s : State) (w : Word) : s.hostWrite 0x008 w = { s.writeCtrl w with answer := none } :=
  State.hostWrite_eq s w (by decide) (by decide)

/-- Settles O52: the soft reset is the power-on state but for the model's inputs, and its answer is the write's. -/
theorem ctrlWrite : Obligations.CtrlWrite := by
  intro s w
  rw [State.hostWrite_ctrl]
  constructor
  · intro hsrst
    rw [State.writeCtrl_of_srst s hsrst]
    rfl
  · intro hsrst
    rw [State.writeCtrl_of_not_srst s hsrst]

/-! ### Power-on reset (R340, R51) -/

/-- With BUSY = 0 and ERR = 0 a CMD write is accepted: the engine is busy with its word (R36). -/
theorem State.hostWrite_cmd_of_ready {s : State} (w : Word) (hb : s.status.busy = false) (he : s.status.err = false) :
    (s.hostWrite 0x014 w).status.busy = true ∧ (s.hostWrite 0x014 w).pend = w := by
  rw [State.hostWrite_cmd, State.submit_of_ready w hb he]
  exact ⟨rfl, rfl⟩

/-- Settles O17: the fields as `resetWith` gives them, the two constants read, and the first command accepted. -/
theorem resetLeavesZero : Obligations.ResetLeavesZero := by
  intro p
  have hid := plainReads (State.resetWith p) 0x000 0x48454C58#32 (Or.inl (by simp))
  have hparam := plainReads (State.resetWith p) 0x004 (0#12 ++ 0xF#4 ++ BitVec.ofNat 16 p.maxSeg)
    (Or.inl (by simp [State.resetWith]))
  exact ⟨State.reg_resetWith p, rfl, rfl, rfl, rfl, rfl, rfl, rfl, rfl, rfl, rfl, congrArg State.answer hid,
    congrArg State.answer hparam, fun w => State.hostWrite_cmd_of_ready w rfl rfl⟩

end Sys2Proof.Machine
